-- ==== Sys2Proof/Word.lean ====
section
/-! DEFINITION. The words of the HexFloat codec: its two operand widths, the request, operand and result
words, and the outcome of one conversion. -/

namespace Sys2Proof

/-- The two operand widths W (00_scope.md R6, R12). No other width exists (30_encoding.md R74). -/
inductive Width where
  | w32
  | w64
deriving DecidableEq, Repr

/-- W in bits (R6, row `W`). -/
@[reducible] def Width.bits : Width → Nat
  | .w32 => 32
  | .w64 => 64

/-- A W-bit operand or result, `u<W>` (R9): bit W-1 is the sign, bit 0 the least significant bit. -/
abbrev Word (w : Width) := BitVec w.bits

/-- The request word `REQ[65:0] = OP[1:0] ++ DATA[63:0]` (30_encoding.md R60). -/
abbrev Request := BitVec 66

/-- The words `REQ.DATA` and `RSP.RESULT` (10_state.md R24). -/
abbrev Data := BitVec 64

/-- How one conversion ends: `Ok(v)`, or RangeError, which carries no value (R11, R25). -/
inductive Result (α : Type) where
  /-- The conversion completed with result word `v`; RANGE_ERROR = 0. -/
  | ok (v : α)
  /-- The conversion raised RangeError: RANGE_ERROR = 1 and no result value exists (R25, R200). -/
  | rangeError
deriving DecidableEq, Repr

/-- A response: the result word, or RangeError (R25, "a model represents the response as
`Except RangeError (BitVec 64)`, or the equivalent"). -/
abbrev Response := Result Data

/-- The direction of a conversion, which `OP[1]` selects (R62). -/
inductive Direction where
  /-- Encode: IEEE-754 to hex-float. -/
  | ieeeToHex
  /-- Decode: hex-float to IEEE-754. -/
  | hexToIeee
deriving DecidableEq, Repr

end Sys2Proof
end

