-- ==== Sys2Proof/Syntax.lean ====
section
/-! DEFINITION. The four operations as syntax (30_encoding.md R66), and the assembler's source forms of a
request (R75, R76). -/

namespace Sys2Proof

/-- One constructor per row of the opcode table, under the row's mnemonic (R66). The operand is the whole
of what the operation reads: a 32-bit operation reads `DATA[31:0]` only (R63), so `DATA[63:32]` is no part
of it. -/
inductive Instr where
  /-- ENC32, OP = 0b00 (40_encode.md R111). -/
  | ieeeSingleToHex (a : BitVec 32)
  /-- ENC64, OP = 0b01 (40_encode.md R112). -/
  | ieeeDoubleToHex (a : BitVec 64)
  /-- DEC32, OP = 0b10 (41_decode.md R150). -/
  | hexToIeeeSingle (h : BitVec 32)
  /-- DEC64, OP = 0b11 (41_decode.md R151). -/
  | hexToIeeeDouble (h : BitVec 64)
deriving DecidableEq, Repr

/-- The direction an operation converts in (R66, column "direction"). -/
def Instr.direction : Instr → Direction
  | .ieeeSingleToHex _ => .ieeeToHex
  | .ieeeDoubleToHex _ => .ieeeToHex
  | .hexToIeeeSingle _ => .hexToIeee
  | .hexToIeeeDouble _ => .hexToIeee

/-- The width an operation works at (R66, column "W"). -/
def Instr.width : Instr → Width
  | .ieeeSingleToHex _ => .w32
  | .ieeeDoubleToHex _ => .w64
  | .hexToIeeeSingle _ => .w32
  | .hexToIeeeDouble _ => .w64

/-- The three spellings of an operation's mnemonic (R66, R75). -/
inductive Spelling where
  /-- The routine name of the source's §6, the mnemonic itself. -/
  | routine
  /-- The original Java name of the source's §9. -/
  | original
  /-- The spec's short name. -/
  | short
deriving DecidableEq, Repr

/-- A request as assembler source. Digits stand most significant first (R75). -/
inductive Source where
  /-- `<mnemonic> 0x<digits>` (R75). -/
  | named (dir : Direction) (width : Width) (name : Spelling) (digits : List (BitVec 4))
  /-- The pseudo-operations `ieeeToHex 0x<digits>, <width>` and `hexToIeee 0x<digits>, <width>` (R76). -/
  | generic (dir : Direction) (digits : List (BitVec 4)) (width : Nat)
deriving DecidableEq, Repr

end Sys2Proof
end

