-- ==== Sys2Proof/WellFormed.lean ====
section
/-! DEFINITION. Which terms are well formed.
For an `Instr` and for a request word there is nothing to check beyond their types: "every W-bit pattern is
a legal operand" and "there are no reserved, illegal, hint or custom encodings" (30_encoding.md R72, R73).
What can be ill formed is an assembler source: R75 fixes the number of hex digits and R74 the widths. -/

namespace Sys2Proof

/-- Every operation with every operand is well formed (R72, R73): the operand's type already holds it to
its width. -/
def Instr.wellFormed : Instr → Bool
  | .ieeeSingleToHex _ => true
  | .ieeeDoubleToHex _ => true
  | .hexToIeeeSingle _ => true
  | .hexToIeeeDouble _ => true

/-- The widths a generic form may name: 32 or 64 and no other (R74, R76). -/
def widthOfNat : Nat → Option Width
  | 32 => some .w32
  | 64 => some .w64
  | _ => none

/-- An operand literal has exactly W/4 hex digits (R75). -/
def digitCountOk (w : Width) (digits : List (BitVec 4)) : Bool := digits.length == w.bits / 4

/-- A source is well formed when its width exists (R74) and its literal has W/4 digits (R75). -/
def Source.wellFormed : Source → Bool
  | .named _ w _ ds => digitCountOk w ds
  | .generic _ ds n =>
    match widthOfNat n with
    | some w => digitCountOk w ds
    | none => false

end Sys2Proof
end

