-- ==== Sys2Proof/Decode.lean ====
section
/-! DEFINITION. From a request word to the operation it selects, and back (30_encoding.md R60-R66).
The decoder is total: all four values of OP select an operation and every DATA is a legal operand (R72), so
there is no encoding to reject. -/

namespace Sys2Proof

/-- `REQ.OP = REQ[65:64]` (R60). -/
def Request.op (q : Request) : BitVec 2 := BitVec.extractLsb' 64 2 q

/-- `REQ.DATA = REQ[63:0]` (R60). -/
def Request.data (q : Request) : Data := BitVec.extractLsb' 0 64 q

/-- The operand of a 32-bit operation, `DATA[31:0]`; `DATA[63:32]` is not read (R63). -/
def operand32 (d : Data) : BitVec 32 := BitVec.extractLsb' 0 32 d

/-- The operand of a 64-bit operation, `DATA[63:0]` (R64). -/
def operand64 (d : Data) : BitVec 64 := d

/-- The decoder: it "reads OP alone to select the operation" (R61), by the opcode map R66. -/
def decode (q : Request) : Instr :=
  if Request.op q = 0b00#2 then .ieeeSingleToHex (operand32 (Request.data q))
  else if Request.op q = 0b01#2 then .ieeeDoubleToHex (operand64 (Request.data q))
  else if Request.op q = 0b10#2 then .hexToIeeeSingle (operand32 (Request.data q))
  else .hexToIeeeDouble (operand64 (Request.data q))

/-- The OP value of an operation: OP[1] is the direction and OP[0] the width (R62). -/
def opBits : Direction → Width → BitVec 2
  | .ieeeToHex, .w32 => 0b00#2
  | .ieeeToHex, .w64 => 0b01#2
  | .hexToIeee, .w32 => 0b10#2
  | .hexToIeee, .w64 => 0b11#2

/-- The request word `OP ++ DATA` (R60). -/
def requestWord (op : BitVec 2) (d : Data) : Request := op ++ d

/-- The encoder. A 32-bit operand is placed in `DATA[31:0]`; the ignored `DATA[63:32]` is written as zero,
which is one of the values R63 lets a requester put there. -/
def encode : Instr → Request
  | .ieeeSingleToHex a => requestWord 0b00#2 (0#32 ++ a)
  | .ieeeDoubleToHex a => requestWord 0b01#2 a
  | .hexToIeeeSingle h => requestWord 0b10#2 (0#32 ++ h)
  | .hexToIeeeDouble h => requestWord 0b11#2 h

/-- The request that a table word stands for: `REQ[65:0]` is bits 65..0 of the number, as the opcode table's
match and mask number them. The spec gives a request no byte layout (20_memory.md R41), so the 66-bit word
is taken whole and the padding that a count in whole bytes adds above bit 65 is no part of it. -/
def requestOfTableWord (w : Nat) : Request := BitVec.ofNat 66 w

/-- The operation the decoder reads from a table word. Bits from `nbits` on are zero, so the word alone says
what the request is. -/
def decodeTableWord (_nbits w : Nat) : Option Instr := some (decode (requestOfTableWord w))

end Sys2Proof
end

