-- ==== Sys2Proof/Machine/Flags.lean ====
section
/-! DEFINITION. The one status of the codec, RANGE_ERROR (10_state.md R26), the cause code (60_exceptions.md
R200), and the 65-bit response word (30_encoding.md R60). -/

namespace Sys2Proof

/-- RSP.RANGE_ERROR: 1 exactly when the operation raised RangeError (R24, R25). It is a field of each
response and no sticky register (R26). -/
def Result.rangeErrorFlag {α : Type} : Result α → Bool
  | .ok _ => false
  | .rangeError => true

/-- The cause code: 0 is success, 1 is RangeError (R200). -/
def Result.causeCode {α : Type} : Result α → Nat
  | .ok _ => 0
  | .rangeError => 1

/-- RSP.RESULT as a requester may read it: only when RANGE_ERROR = 0 (R25, R207). -/
def Result.value {α : Type} : Result α → Option α
  | .ok v => some v
  | .rangeError => none

/-- The response word `RSP[64:0] = RANGE_ERROR ++ RESULT` (R60). On a RangeError "a realization may drive any
value" on RESULT (R25, 93_implementation_defined.md U2): that value is the argument `driven`, which nothing
constrains. -/
def Response.word (driven : Data) : Response → BitVec 65
  | .ok v => 0#1 ++ v
  | .rangeError => 1#1 ++ driven

end Sys2Proof
end

