-- ==== Sys2Proof/Machine/Format.lean ====
section
/-! DEFINITION. The per-width constants of 00_scope.md R6 and the field masks of 30_encoding.md R71. -/

namespace Sys2Proof

/-- EW: the IEEE exponent field width (R6). -/
def Width.ew : Width → Nat
  | .w32 => 8
  | .w64 => 11

/-- MW: the IEEE stored mantissa field width (R6). -/
def Width.mw : Width → Nat
  | .w32 => 23
  | .w64 => 52

/-- HW: the hex-float mantissa field width (R6). -/
def Width.hw : Width → Nat
  | .w32 => 24
  | .w64 => 56

/-- BIAS: the IEEE exponent bias of this block, 126/1022 (R6, R7), for a significand read as 0.1fff…. -/
def Width.bias : Width → Int
  | .w32 => 126
  | .w64 => 1022

/-- XW: the hex-float exponent field width (R6). -/
abbrev hexExpWidth : Nat := 7

/-- XBIAS: the hex-float exponent bias (R6). -/
abbrev hexBias : Int := 64

/-- XMAX: the largest hex exponent field value (R6). -/
abbrev hexExpMax : Int := 127

/-- ALIGN = HW - (MW + 1): 0 at W = 32 and 3 at W = 64 (R6, 90_conflicts.md C1). -/
def Width.align (w : Width) : Nat := w.hw - (w.mw + 1)

/-- EMIN = -BIAS: the exponent value of the zero IEEE exponent field (R6). -/
def Width.emin (w : Width) : Int := -w.bias

/-- EMAX = 2^EW - 2 - BIAS: the largest exponent of a finite IEEE value (R6). -/
def Width.emax (w : Width) : Int := 2 ^ w.ew - 2 - w.bias

/-- The sign mask (R71). -/
def signMask : (w : Width) → Word w
  | .w32 => 0x80000000#32
  | .w64 => 0x8000000000000000#64

/-- The non-sign bits (R71). -/
def nonSignMask : (w : Width) → Word w
  | .w32 => 0x7FFFFFFF#32
  | .w64 => 0x7FFFFFFFFFFFFFFF#64

/-- The IEEE exponent mask (R71). -/
def ieeeExpMask : (w : Width) → Word w
  | .w32 => 0x7F800000#32
  | .w64 => 0x7FF0000000000000#64

/-- The IEEE mantissa mask (R71). -/
def ieeeFracMask : (w : Width) → Word w
  | .w32 => 0x007FFFFF#32
  | .w64 => 0x000FFFFFFFFFFFFF#64

/-- The IEEE implicit bit, 1 << MW (R71). -/
def implicitBitMask : (w : Width) → Word w
  | .w32 => 0x00800000#32
  | .w64 => 0x0010000000000000#64

/-- The hex exponent mask (R71). -/
def hexExpMask : (w : Width) → Word w
  | .w32 => 0x7F000000#32
  | .w64 => 0x7F00000000000000#64

/-- The hex mantissa mask (R71). -/
def hexMantMask : (w : Width) → Word w
  | .w32 => 0x00FFFFFF#32
  | .w64 => 0x00FFFFFFFFFFFFFF#64

/-- The hex top nibble, M[HW-1:HW-4] (R71). -/
def topNibbleMask : (w : Width) → Word w
  | .w32 => 0x00F00000#32
  | .w64 => 0x00F0000000000000#64

/-- The hex top bit, M[HW-1] (R71). -/
def topBitMask : (w : Width) → Word w
  | .w32 => 0x00800000#32
  | .w64 => 0x0080000000000000#64

end Sys2Proof
end

