-- ==== Sys2Proof/Machine/Operands.lean ====
section
/-! DEFINITION. The operand and result formats: the split of a word into its fields and the assembly of a
word from fields (30_encoding.md R65, R67-R70), and the placement of results in RSP.RESULT (R63, R64).
Field values are unsigned integers (00_scope.md R9); mantissa and exponent working values are mathematical
integers (R10). -/

namespace Sys2Proof

/-- s: the sign bit, bit W-1 (R67-R70). -/
def signBit (w : Width) (a : Word w) : Bool := a.getLsbD (w.bits - 1)

/-- The non-sign bits `a[W-2:0]` (R101, R141). -/
def nonSign (w : Width) (a : Word w) : Nat := (a.extractLsb' 0 (w.bits - 1)).toNat

/-- E: the biased IEEE exponent `a[W-2:MW]` (R67, R68, R102). -/
def ieeeExp (w : Width) (a : Word w) : Nat := (a.extractLsb' w.mw w.ew).toNat

/-- f: the stored IEEE mantissa `a[MW-1:0]` (R67, R68, R102). -/
def ieeeFrac (w : Width) (a : Word w) : Nat := (a.extractLsb' 0 w.mw).toNat

/-- X: the biased radix-16 exponent `h[W-2:HW]` (R69, R70, R142). -/
def hexExp (w : Width) (h : Word w) : Nat := (h.extractLsb' w.hw hexExpWidth).toNat

/-- M: the hex mantissa `h[HW-1:0]` (R69, R70, R142). -/
def hexMant (w : Width) (h : Word w) : Nat := (h.extractLsb' 0 w.hw).toNat

/-- The IEEE fields fill the word: 1 + EW + MW = W (R67, R68). -/
theorem ieee_fields_fill (w : Width) : 1 + w.ew + w.mw = w.bits := by cases w <;> rfl

/-- The hex fields fill the word: 1 + XW + HW = W (R69, R70). -/
theorem hex_fields_fill (w : Width) : 1 + hexExpWidth + w.hw = w.bits := by cases w <;> rfl

/-- `s ++ Eo[EW-1:0] ++ m[MW-1:0]` (R149): a field written `v[n-1:0]` means v mod 2^n (R9). -/
def assembleIeee (w : Width) (s : Bool) (Eo : Int) (m : Nat) : Word w :=
  (BitVec.ofBool s ++ BitVec.ofInt w.ew Eo ++ BitVec.ofNat w.mw m).cast (ieee_fields_fill w)

/-- `s ++ X[6:0] ++ M[HW-1:0]` (R110). -/
def assembleHex (w : Width) (s : Bool) (X : Int) (M : Nat) : Word w :=
  (BitVec.ofBool s ++ BitVec.ofInt hexExpWidth X ++ BitVec.ofNat w.hw M).cast (hex_fields_fill w)

/-- `s ++ zeros(W-1)`: the correctly signed zero, the same pattern in both formats (R101, R109, R147). -/
def signedZero : (w : Width) → Bool → Word w
  | .w32, s => BitVec.ofBool s ++ 0#31
  | .w64, s => BitVec.ofBool s ++ 0#63

/-- `s ++ ones(EW) ++ zeros(MW)`: the canonical infinity (R148). -/
def infinity : (w : Width) → Bool → Word w
  | .w32, s => BitVec.ofBool s ++ BitVec.allOnes 8 ++ 0#23
  | .w64, s => BitVec.ofBool s ++ BitVec.allOnes 11 ++ 0#52

/-- The top nibble of a hex mantissa, `M[HW-1:HW-4]` (R14, R71). -/
def topNibble (w : Width) (M : Nat) : Nat := M >>> (w.hw - 4) % 16

/-- A hex mantissa is hex-normalized when its top nibble is not zero (R14). -/
def hexNormalized (w : Width) (M : Nat) : Bool := topNibble w M != 0

/-- The top bit of a hex mantissa, `M[HW-1]`: the "top implicit-bit position" of R144. -/
def topBit (w : Width) (M : Nat) : Bool := M.testBit (w.hw - 1)

/-- `lzc_n(v)`: the number of leading zero bits of v in an n-bit field, with `lzc_n(0) = n` (R10). -/
def lzc (n v : Nat) : Nat := if v = 0 then n else n - 1 - v.log2

/-- `zext_64` of a 32-bit result, so that RESULT[63:32] = 0 (R63). -/
def zext64 (v : BitVec 32) : Data := 0#32 ++ v

/-- `lift32` (10_state.md R29): a 32-bit result is zero-extended, RangeError stays RangeError. -/
def lift32 : Result (BitVec 32) → Response
  | .ok v => .ok (zext64 v)
  | .rangeError => .rangeError

end Sys2Proof
end

