-- ==== Sys2Proof/Config.lean ====
section
/-! DEFINITION. What is fixed when a codec is built: the one build parameter of 00_scope.md R8.
LATENCY and PAYLOAD_BYTE_ORDER, the two other names of R8, are OPEN in the spec and no rule depends on
them; they are outside a transaction-level model (93_implementation_defined.md U3, U5). -/

namespace Sys2Proof

/-- The values of ENC_UNDERFLOW_ZERO (R8, R109): the sign of the zero that an underflowing encode returns. -/
inductive UnderflowZero where
  /-- The zero keeps the operand's sign (the spec's default, 92_eei_decisions.md D6). -/
  | signed
  /-- The zero is always `zeros(W)`: the behaviour of the original code. -/
  | unsigned
deriving DecidableEq, Repr

/-- A build of the codec. It is "fixed when the block is built" and "not a run-time register" (R23). -/
structure Config where
  encUnderflowZero : UnderflowZero
deriving DecidableEq, Repr

/-- The build the spec takes where nobody says otherwise: ENC_UNDERFLOW_ZERO = SIGNED (R8). -/
def Config.default : Config := { encUnderflowZero := .signed }

end Sys2Proof
end

