-- ==== Sys2Proof/Machine/State.lean ====
section
/-! DEFINITION. The state of a transaction-level model of the codec, and the reasons a step can stop.
The codec itself has no architectural state (10_state.md R20). What a step needs beside it is the interface:
the requests a host has presented and the responses it has been given (R24, 20_memory.md R44, 70 R243). -/

namespace Sys2Proof.Machine

/-- Why the machine could fault: never. "Every request completes: no request hangs, faults or is refused"
(10_state.md R29), and RangeError is a response and no trap (60_exceptions.md R205). The type has no
constructor, so nothing can raise a fault: safe, since no behaviour is cut off. -/
inductive Fault where
deriving DecidableEq, Repr

/-- Why the model could refuse an operation. -/
inductive Refusal where
  /-- Raised only by a refused arm of `exec`, for an operation without a meaning; no arm is refused now.
  Safe: a claim about such an operation is unprovable, never false. -/
  | notModelled (mnemonic : String)
deriving DecidableEq, Repr

/-- The interface of a codec and what it was built with. None of these fields is a register of the codec. -/
structure State where
  /-- The build parameter. It stands here because a model takes it "as an argument" (R8); no step changes it (R23). -/
  config : Config
  /-- Requests presented by the host and not yet accepted, oldest first (R44, R45). -/
  requests : List Request
  /-- Requests accepted so far, oldest first: a transaction-level model "pairs each request with its
  response" (R243). -/
  accepted : List Request
  /-- Responses delivered so far, oldest first, "in the order the requests were accepted" (R44). -/
  responses : List Response
deriving DecidableEq, Repr

/-- Right after reset there is no request and "no response exists yet" (70_reset_and_hazards.md R240); the
build is the default one. -/
def State.reset : State :=
  { config := Config.default, requests := [], accepted := [], responses := [] }

end Sys2Proof.Machine
end

