-- ==== Sys2Proof/Machine/Ops.lean ====
section
/-! DEFINITION. The shared operations on the interface: presenting a request, accepting the next one,
completing an operation, and raising RangeError. -/

namespace Sys2Proof.Machine

/-- The outcome of a step of this machine. -/
abbrev Outcome := Host.Outcome State Fault Refusal

/-- What the host can do to the machine: present a further request behind those already waiting (R44: "the
order of requests is the host's"). -/
def State.submit (s : State) (q : Request) : State := { s with requests := s.requests ++ [q] }

/-- A state in which `q` is the next request to be accepted, before those already waiting. -/
def State.presentNext (s : State) (q : Request) : State := { s with requests := q :: s.requests }

/-- Accept the oldest waiting request, if there is one. -/
def State.fetch (s : State) : Option (Request × State) :=
  match s.requests with
  | [] => none
  | q :: rest => some (q, { s with requests := rest, accepted := s.accepted ++ [q] })

/-- Deliver a response behind those already delivered (R44: in the order the requests were accepted). -/
def State.deliver (s : State) (r : Response) : State := { s with responses := s.responses ++ [r] }

/-- `return Ok(v)`: the operation completes with result word v and RANGE_ERROR = 0 (R11). -/
def complete (v : Data) (s : State) : Outcome := .next (s.deliver (.ok v))

/-- `raise RangeError()` (R11, R200): the codec's one exception. It is reported in the response to its own
request; it "saves no state, changes no mode or mask, and transfers control nowhere" (R205), and there is
nothing to return from (R206). -/
def raiseRangeError (s : State) : Outcome := .next (s.deliver .rangeError)

/-- An operation ends in exactly one of the two ways (R204). -/
def respond (r : Response) (s : State) : Outcome :=
  match r with
  | .ok v => complete v s
  | .rangeError => raiseRangeError s

end Sys2Proof.Machine
end

