-- ==== Sys2Proof/Machine/HexToIeee.lean ====
section
/-! DEFINITION. The decode family, hex-float to IEEE-754 (41_decode.md): the shared algorithm DEC(W, h) of
R140, one definition per step rule, and the two operations DEC32 and DEC64. Left normalization runs before
the subnormal test (90_conflicts.md C5), and discarded mantissa bits are truncated (00_scope.md R16). -/

namespace Sys2Proof.Machine

/-- e = 4 × (X - 64) (R143), an integer. -/
def decExponent (w : Width) (h : Word w) : Int := 4 * ((hexExp w h : Int) - hexBias)

/-- The loop of R144: while M[HW-1] = 0 and e > EMIN, shift M left by 1 and decrement e. The first argument
bounds the number of rounds. -/
def leftNormalizeLoop (w : Width) : Nat → Nat → Int → Nat × Int
  | 0, M, e => (M, e)
  | n + 1, M, e =>
    if topBit w M = false ∧ e > w.emin then leftNormalizeLoop w n (M <<< 1) (e - 1) else (M, e)

/-- Left normalization (R144). Each round takes e one nearer to EMIN, so e - EMIN rounds are all there are. -/
def leftNormalize (w : Width) (M : Nat) (e : Int) : Nat × Int :=
  leftNormalizeLoop w (e - w.emin).toNat M e

/-- The mantissa and the exponent e_n after left normalization (R144). -/
def decNormalized (w : Width) (h : Word w) : Nat × Int :=
  leftNormalize w (hexMant w h) (decExponent w h)

/-- The loop of R145: while e < EMIN, increment e and shift M right by 1. The first argument bounds the
number of rounds. -/
def denormalizeLoop (w : Width) : Nat → Nat → Int → Nat × Int
  | 0, M, e => (M, e)
  | n + 1, M, e =>
    if e < w.emin then denormalizeLoop w n (M >>> 1) (e + 1) else (M, e)

/-- No-implicit-bit denormalization (R145): when e ≤ EMIN, one extra right shift and then the loop. Each
round takes e one nearer to EMIN, so EMIN - e rounds are all there are. -/
def denormalize (w : Width) (M : Nat) (e : Int) : Nat × Int :=
  if e ≤ w.emin then denormalizeLoop w (w.emin - e).toNat (M >>> 1) e else (M, e)

/-- The mantissa and the final exponent after R145. -/
def decDenormalized (w : Width) (h : Word w) : Nat × Int :=
  denormalize w (decNormalized w h).1 (decNormalized w h).2

/-- Alignment drop (R146). -/
def dropAlignment (w : Width) (M : Nat) : Nat := M >>> w.align

/-- DEC(W, h) (R140): the zero bypass (R141), the underflow check (R147) and the overflow check (R148) on
e_n, and assembly (R149), in the order of R204. -/
def dec (w : Width) (h : Word w) : Result (Word w) :=
  if nonSign w h = 0 then .ok h
  else if (decNormalized w h).2 < w.emin - w.mw then .ok (signedZero w (signBit w h))
  else if (decNormalized w h).2 > w.emax then .ok (infinity w (signBit w h))
  else .ok (assembleIeee w (signBit w h) ((decDenormalized w h).2 + w.bias)
    (dropAlignment w (decDenormalized w h).1))

/-- DEC32, hexToIeeeSingle (R150): DEC(32, DATA[31:0]), zero-extended. -/
def execHexToIeeeSingle (h : BitVec 32) (s : State) : Outcome :=
  respond (lift32 (dec .w32 h)) s

/-- DEC64, hexToIeeeDouble (R151): DEC(64, DATA[63:0]). -/
def execHexToIeeeDouble (h : BitVec 64) (s : State) : Outcome :=
  respond (dec .w64 h) s

end Sys2Proof.Machine
end

