-- ==== Sys2Proof/Machine/IeeeToHex.lean ====
section
/-! DEFINITION. The encode family, IEEE-754 to hex-float (40_encode.md): the shared algorithm ENC(W, a) of
R100, one definition per step rule, and the two operations ENC32 and ENC64. Discarded mantissa bits are
truncated, never rounded (00_scope.md R16). -/

namespace Sys2Proof.Machine

/-- e = E - BIAS (R102), an integer. -/
def encExponent (w : Width) (a : Word w) : Int := (ieeeExp w a : Int) - w.bias

/-- qx: the hex exponent magnitude, `|e| div 4`, plus 1 when e > 0 and r ≠ 0 (R103). -/
def hexExpMagnitude (e : Int) : Nat :=
  if e > 0 ∧ e.natAbs % 4 ≠ 0 then e.natAbs / 4 + 1 else e.natAbs / 4

/-- The exponent rebaser (R103): X = 64 - qx when e < 0, else 64 + qx. -/
def rebase (e : Int) : Int :=
  if e < 0 then hexBias - hexExpMagnitude e else hexBias + hexExpMagnitude e

/-- Significand formation (R104): the implicit bit is set when E ≠ 0; with E = 0 the mantissa is shifted one
extra position left. -/
def significand (w : Width) (E f : Nat) : Nat :=
  if E ≠ 0 then (1 <<< w.mw) ||| f else f <<< 1

/-- Alignment into the hex mantissa field (R105). -/
def alignToHex (w : Width) (m : Nat) : Nat := m <<< w.align

/-- sh: the radix-remainder shift (R106), 0 when r = 0 (90_conflicts.md C9), 4 - r when e > 0, else r. -/
def remainderShift (e : Int) : Nat :=
  if e.natAbs % 4 = 0 then 0 else if e > 0 then 4 - e.natAbs % 4 else e.natAbs % 4

/-- The mantissa M after the radix-remainder shift (R104-R106). -/
def encMantissa (w : Width) (a : Word w) : Nat :=
  alignToHex w (significand w (ieeeExp w a) (ieeeFrac w a)) >>> remainderShift (encExponent w a)

/-- The loop of R107: while M ≠ 0 and its top nibble is 0, shift M left by 4 and decrement X. The first
argument bounds the number of rounds. -/
def renormalizeLoop (w : Width) : Nat → Nat → Int → Nat × Int
  | 0, M, X => (M, X)
  | n + 1, M, X =>
    if M ≠ 0 ∧ topNibble w M = 0 then renormalizeLoop w n (M <<< 4) (X - 1) else (M, X)

/-- Subnormal renormalization (R107). HW rounds are more than any HW-bit mantissa takes. -/
def renormalize (w : Width) (M : Nat) (X : Int) : Nat × Int := renormalizeLoop w w.hw M X

/-- M and X after R107, which runs only when E = 0. -/
def encNormalized (w : Width) (a : Word w) : Nat × Int :=
  if ieeeExp w a = 0 then renormalize w (encMantissa w a) (rebase (encExponent w a))
  else (encMantissa w a, rebase (encExponent w a))

/-- UFZERO(s) (R100, R109): the zero that an underflowing encode returns. -/
def underflowZero (c : Config) (w : Width) (s : Bool) : Word w :=
  match c.encUnderflowZero with
  | .signed => signedZero w s
  | .unsigned => 0

/-- ENC(W, a) (R100): the zero bypass (R101), then the overflow check (R108), the underflow check (R109) and
assembly (R110), in the order of R204. -/
def enc (c : Config) (w : Width) (a : Word w) : Result (Word w) :=
  if nonSign w a = 0 then .ok a
  else if (encNormalized w a).2 > hexExpMax then .rangeError
  else if (encNormalized w a).2 < 0 then .ok (underflowZero c w (signBit w a))
  else .ok (assembleHex w (signBit w a) (encNormalized w a).2 (encNormalized w a).1)

/-- ENC32, ieeeSingleToHex (R111): ENC(32, DATA[31:0]), zero-extended. -/
def execIeeeSingleToHex (a : BitVec 32) (s : State) : Outcome :=
  respond (lift32 (enc s.config .w32 a)) s

/-- ENC64, ieeeDoubleToHex (R112): ENC(64, DATA[63:0]). -/
def execIeeeDoubleToHex (a : BitVec 64) (s : State) : Outcome :=
  respond (enc s.config .w64 a) s

end Sys2Proof.Machine
end

