-- ==== Sys2Proof/Machine/Dispatch.lean ====
section
/-! DEFINITION. One arm per operation of the opcode map (30_encoding.md R66), each one call of its meaning. -/

namespace Sys2Proof.Machine

def exec (i : Instr) (s : State) : Host.Outcome State Fault Refusal :=
  match i with
  | .ieeeSingleToHex a => Sys2Proof.Machine.execIeeeSingleToHex a s
  | .ieeeDoubleToHex a => Sys2Proof.Machine.execIeeeDoubleToHex a s
  | .hexToIeeeSingle h => Sys2Proof.Machine.execHexToIeeeSingle h s
  | .hexToIeeeDouble h => Sys2Proof.Machine.execHexToIeeeDouble h s

end Sys2Proof.Machine
end

