-- ==== Sys2Proof/Machine/Step.lean ====
section
/-! DEFINITION. One step: one request gives one response (10_state.md R29). -/

namespace Sys2Proof.Machine

/-- Accept the oldest waiting request, decode it and run it. With no request waiting nothing happens: the
codec acts only on a request (10_state.md R22, R29). -/
def step (s : State) : Host.Outcome State Fault Refusal :=
  match s.fetch with
  | none => .next s
  | some (q, t) => exec (decode q) t

/-- The state in which the very next step runs the table word `w`: the host presents it as the next request.
Bits from `nbits` on are zero, so the word alone says what the request is. -/
def State.withFetchWord (s : State) (_nbits w : Nat) : State := s.presentNext (requestOfTableWord w)

end Sys2Proof.Machine
end

