-- ==== Sys2Proof/Machine/Assembler.lean ====
section
/-! DEFINITION. The assembler notation of requests and responses (30_encoding.md R75, R76). It is the spec's
notation for requests and no part of the codec. Texts are lists of characters. -/

namespace Sys2Proof

/-- Why a source line is not a request. -/
inductive AsmError where
  /-- The line is not `<mnemonic> <operand>` or `<mnemonic> <operand>, <width>` (R75, R76). -/
  | notARequest
  /-- The first word is no mnemonic, alias or pseudo-operation (R66, R75, R76). -/
  | unknownMnemonic
  /-- The operand is not `0x` followed by hex digits (R75). -/
  | notAHexLiteral
  /-- The operand has not exactly W/4 digits (R75). -/
  | wrongDigitCount
  /-- The width of a pseudo-operation is not 32 or 64 (R74, R76). -/
  | noSuchWidth
deriving DecidableEq, Repr

/-- The spellings of R66: the §6 mnemonic, the §9 original name and the short name of each operation. -/
def mnemonicText : Direction → Width → Spelling → List Char
  | .ieeeToHex, .w32, .routine => ['i', 'e', 'e', 'e', 'S', 'i', 'n', 'g', 'l', 'e', 'T', 'o', 'H', 'e', 'x']
  | .ieeeToHex, .w32, .original =>
      ['f', 'l', 'o', 'a', 't', 'T', 'o', 'S', '3', '9',
       '0', 'I', 'n', 't', 'B', 'i', 't', 's']
  | .ieeeToHex, .w32, .short => ['E', 'N', 'C', '3', '2']
  | .ieeeToHex, .w64, .routine => ['i', 'e', 'e', 'e', 'D', 'o', 'u', 'b', 'l', 'e', 'T', 'o', 'H', 'e', 'x']
  | .ieeeToHex, .w64, .original =>
      ['d', 'o', 'u', 'b', 'l', 'e', 'T', 'o', 'S', '3', '9',
       '0', 'L', 'o', 'n', 'g', 'B', 'i', 't', 's']
  | .ieeeToHex, .w64, .short => ['E', 'N', 'C', '6', '4']
  | .hexToIeee, .w32, .routine => ['h', 'e', 'x', 'T', 'o', 'I', 'e', 'e', 'e', 'S', 'i', 'n', 'g', 'l', 'e']
  | .hexToIeee, .w32, .original =>
      ['i', 'n', 't', 'S', '3', '9', '0', 'B', 'i', 't',
       's', 'T', 'o', 'F', 'l', 'o', 'a', 't']
  | .hexToIeee, .w32, .short => ['D', 'E', 'C', '3', '2']
  | .hexToIeee, .w64, .routine => ['h', 'e', 'x', 'T', 'o', 'I', 'e', 'e', 'e', 'D', 'o', 'u', 'b', 'l', 'e']
  | .hexToIeee, .w64, .original =>
      ['l', 'o', 'n', 'g', 'S', '3', '9', '0', 'B', 'i', 't',
       's', 'T', 'o', 'D', 'o', 'u', 'b', 'l', 'e']
  | .hexToIeee, .w64, .short => ['D', 'E', 'C', '6', '4']

/-- The names of the pseudo-operations (R76). -/
def genericText : Direction → List Char
  | .ieeeToHex => ['i', 'e', 'e', 'e', 'T', 'o', 'H', 'e', 'x']
  | .hexToIeee => ['h', 'e', 'x', 'T', 'o', 'I', 'e', 'e', 'e']

/-- A hex digit as a character. -/
def hexChar (d : BitVec 4) : Char :=
  if d.toNat < 10 then Char.ofNat (48 + d.toNat) else Char.ofNat (55 + d.toNat)

/-- The value of a hex digit, in capitals or small letters. -/
def hexDigit (c : Char) : Option (BitVec 4) :=
  if 48 ≤ c.toNat ∧ c.toNat ≤ 57 then some (BitVec.ofNat 4 (c.toNat - 48))
  else if 65 ≤ c.toNat ∧ c.toNat ≤ 70 then some (BitVec.ofNat 4 (c.toNat - 55))
  else if 97 ≤ c.toNat ∧ c.toNat ≤ 102 then some (BitVec.ofNat 4 (c.toNat - 87))
  else none

/-- The `k` low hex digits of a number, most significant first. -/
def hexDigits : Nat → Nat → List (BitVec 4)
  | 0, _ => []
  | k + 1, v => BitVec.ofNat 4 (v / 16 ^ k) :: hexDigits k v

/-- The number that hex digits denote, most significant first. -/
def hexNumber (ds : List (BitVec 4)) : Nat := ds.foldl (fun n d => 16 * n + d.toNat) 0

/-- `0x` followed by the digits (R75). -/
def literalText (ds : List (BitVec 4)) : List Char := '0' :: 'x' :: ds.map hexChar

/-- A decimal number, for the width of a pseudo-operation. -/
def readDecimal : List Char → Option Nat
  | [] => none
  | cs => cs.foldl (fun n c => n.bind fun k =>
      if 48 ≤ c.toNat ∧ c.toNat ≤ 57 then some (10 * k + (c.toNat - 48)) else none) (some 0)

/-- Read `0x` followed by hex digits (R75). -/
def readLiteral : List Char → Option (List (BitVec 4))
  | '0' :: 'x' :: cs => cs.mapM hexDigit
  | _ => none

/-- Split a line into words: blanks separate words, a comma is a word of its own, and a comment runs from
`;` to the end of the line (R75). `word` is the word being read, last character first. -/
def words (word : List Char) : List Char → List (List Char)
  | [] => if word = [] then [] else [word.reverse]
  | c :: cs =>
    if c = ';' then (if word = [] then [] else [word.reverse])
    else if c = ' ' then (if word = [] then words [] cs else word.reverse :: words [] cs)
    else if c = ',' then
      (if word = [] then [','] :: words [] cs else word.reverse :: [','] :: words [] cs)
    else words (c :: word) cs

/-- All spellings of all operations (R66). -/
def allMnemonics : List (Direction × Width × Spelling) :=
  [(.ieeeToHex, .w32, .routine), (.ieeeToHex, .w32, .original), (.ieeeToHex, .w32, .short),
   (.ieeeToHex, .w64, .routine), (.ieeeToHex, .w64, .original), (.ieeeToHex, .w64, .short),
   (.hexToIeee, .w32, .routine), (.hexToIeee, .w32, .original), (.hexToIeee, .w32, .short),
   (.hexToIeee, .w64, .routine), (.hexToIeee, .w64, .original), (.hexToIeee, .w64, .short)]

/-- The operation and spelling that a word names (R66). -/
def lookupMnemonic (t : List Char) : Option (Direction × Width × Spelling) :=
  allMnemonics.find? fun m => mnemonicText m.1 m.2.1 m.2.2 == t

/-- The pseudo-operation that a word names (R76). -/
def lookupGeneric (t : List Char) : Option Direction :=
  [Direction.ieeeToHex, Direction.hexToIeee].find? fun d => genericText d == t

/-- Read one source line (R75, R76). -/
def readSource (line : List Char) : Except AsmError Source :=
  match words [] line with
  | [m, l] =>
    match lookupMnemonic m with
    | none => .error .unknownMnemonic
    | some (d, w, sp) =>
      match readLiteral l with
      | none => .error .notAHexLiteral
      | some ds => .ok (.named d w sp ds)
  | [m, l, [','], n] =>
    match lookupGeneric m with
    | none => .error .unknownMnemonic
    | some d =>
      match readLiteral l with
      | none => .error .notAHexLiteral
      | some ds =>
        match readDecimal n with
        | none => .error .noSuchWidth
        | some k => .ok (.generic d ds k)
  | _ => .error .notARequest

/-- The request a literal stands for: OP by the operation, the operand in the low bits of DATA (R62-R64). -/
def assembleOperand (d : Direction) (w : Width) (ds : List (BitVec 4)) : Except AsmError Request :=
  if digitCountOk w ds then .ok (requestWord (opBits d w) (BitVec.ofNat 64 (hexNumber ds)))
  else .error .wrongDigitCount

/-- Assemble a source (R75, R76). An ill-formed one is refused by name. -/
def Source.assemble : Source → Except AsmError Request
  | .named d w _ ds => assembleOperand d w ds
  | .generic d ds n =>
    match widthOfNat n with
    | none => .error .noSuchWidth
    | some w => assembleOperand d w ds

/-- Assemble one source line. -/
def assembleLine (line : List Char) : Except AsmError Request :=
  match readSource line with
  | .error e => .error e
  | .ok src => src.assemble

/-- The text of a width. -/
def widthText : Width → List Char
  | .w32 => ['3', '2']
  | .w64 => ['6', '4']

/-- The source line of a named request (R75). -/
def namedLine (d : Direction) (w : Width) (sp : Spelling) (ds : List (BitVec 4)) : List Char :=
  mnemonicText d w sp ++ ' ' :: literalText ds

/-- The source line of a pseudo-operation (R76). -/
def genericLine (d : Direction) (w : Width) (ds : List (BitVec 4)) : List Char :=
  genericText d ++ ' ' :: (literalText ds ++ ',' :: ' ' :: widthText w)

/-- An operation in its routine spelling (R75). -/
def Instr.text : Instr → List Char
  | .ieeeSingleToHex a => namedLine .ieeeToHex .w32 .routine (hexDigits 8 a.toNat)
  | .ieeeDoubleToHex a => namedLine .ieeeToHex .w64 .routine (hexDigits 16 a.toNat)
  | .hexToIeeeSingle h => namedLine .hexToIeee .w32 .routine (hexDigits 8 h.toNat)
  | .hexToIeeeDouble h => namedLine .hexToIeee .w64 .routine (hexDigits 16 h.toNat)

/-- A request word as 17 hex digits `O_DDDDDDDDDDDDDDDD`, the first being OP (R75). -/
def requestText (q : Request) : List Char :=
  hexChar (BitVec.ofNat 4 (Request.op q).toNat) :: '_' ::
    (hexDigits 16 (Request.data q).toNat).map hexChar

/-- Read a request word written as 17 hex digits (R75); the first is 0 to 3. -/
def readRequest : List Char → Option Request
  | o :: '_' :: cs =>
    match hexDigit o, cs.mapM hexDigit with
    | some op, some ds =>
      if op.toNat < 4 ∧ ds.length = 16 then
        some (requestWord (BitVec.ofNat 2 op.toNat) (BitVec.ofNat 64 (hexNumber ds)))
      else none
    | _, _ => none
  | _ => none

/-- A response in assembler notation: `-> 0x<W/4 hex digits>` or `-> RangeError` (R75). -/
def responseText (w : Width) : Response → List Char
  | .ok v => ['-', '>', ' '] ++ literalText (hexDigits (w.bits / 4) v.toNat)
  | .rangeError => ['-', '>', ' ', 'R', 'a', 'n', 'g', 'e', 'E', 'r', 'r', 'o', 'r']

end Sys2Proof
end

