-- ==== Sys2Proof/Machine/ClosedForms.lean ====
section
/-! DEFINITION. The closed forms that a combinational realization computes in place of the three loops
(00_scope.md R11, 70_reset_and_hazards.md R244). The machine runs the loops; these are stated beside them. -/

namespace Sys2Proof.Machine

/-- k of R107: the rounds of the subnormal renormalization, 0 when M = 0, else ⌊lzc_HW(M) / 4⌋. -/
def renormalizeRounds (w : Width) (M : Nat) : Nat := if M = 0 then 0 else lzc w.hw M / 4

/-- The closed form of R107: `M << 4k` and `X - k`. -/
def renormalizeClosed (w : Width) (M : Nat) (X : Int) : Nat × Int :=
  (M <<< (4 * renormalizeRounds w M), X - renormalizeRounds w M)

/-- L of R144: the rounds of the left normalization. -/
def leftNormalizeRounds (w : Width) (M : Nat) (e : Int) : Nat :=
  if M = 0 then (max 0 (e - w.emin)).toNat
  else if e > w.emin then min (lzc w.hw M) (e - w.emin).toNat
  else 0

/-- The closed form of R144: `M << L` and `e - L`. -/
def leftNormalizeClosed (w : Width) (M : Nat) (e : Int) : Nat × Int :=
  (M <<< leftNormalizeRounds w M e, e - leftNormalizeRounds w M e)

/-- Rsh of R145: `1 + (EMIN - e_n)`, for e_n ≤ EMIN. -/
def denormalizeShift (w : Width) (e : Int) : Nat := 1 + (w.emin - e).toNat

/-- The closed form of R145, for e_n ≤ EMIN: `M >> Rsh` and EMIN. -/
def denormalizeClosed (w : Width) (M : Nat) (e : Int) : Nat × Int :=
  (M >>> denormalizeShift w e, w.emin)

end Sys2Proof.Machine
end

