-- ==== Sys2Proof/Machine/Values.lean ====
section
/-! DEFINITION. The numbers that words denote (00_scope.md R15). No datapath rule depends on them: they are
what the rules on precision and range (R115, R116, R156) speak about. -/

namespace Sys2Proof

/-- The factor (-1)^s (R15). -/
def signFactor (s : Bool) : ℚ := if s then -1 else 1

/-- The magnitude of an IEEE word (R15): `(2^MW + f) × 2^(E - BIAS - MW - 1)` when E ≠ 0, else
`f × 2^(-BIAS - MW)`. -/
def ieeeMagnitude (w : Width) (a : Word w) : ℚ :=
  if ieeeExp w a ≠ 0 then
    ((2 : ℚ) ^ w.mw + ieeeFrac w a) * (2 : ℚ) ^ ((ieeeExp w a : Int) - w.bias - w.mw - 1)
  else (ieeeFrac w a : ℚ) * (2 : ℚ) ^ (-w.bias - (w.mw : Int))

/-- The number an IEEE word denotes (R15). -/
def ieeeValue (w : Width) (a : Word w) : ℚ := signFactor (signBit w a) * ieeeMagnitude w a

/-- The magnitude of a hex word (R15): `M × 2^-HW × 16^(X - 64)`. -/
def hexMagnitude (w : Width) (h : Word w) : ℚ :=
  (hexMant w h : ℚ) * (2 : ℚ) ^ (-(w.hw : Int)) * (16 : ℚ) ^ ((hexExp w h : Int) - hexBias)

/-- The number a hex word denotes (R15). -/
def hexValue (w : Width) (h : Word w) : ℚ := signFactor (signBit w h) * hexMagnitude w h

end Sys2Proof
end

