-- ==== Sys2Proof/Machine/Hfc.lean ====
section
/-! DEFINITION. The codec as one function from requests to responses (10_state.md R29), written over the
request word itself, beside the machine that decodes a request and runs its operation. -/

namespace Sys2Proof.Machine

/-- `HFC(OP, DATA)` (R29), for a codec built as `c`. -/
def hfc (c : Config) (q : Request) : Response :=
  match (Request.op q).toNat with
  | 0 => lift32 (enc c .w32 (BitVec.extractLsb' 0 32 q))
  | 1 => enc c .w64 (Request.data q)
  | 2 => lift32 (dec .w32 (BitVec.extractLsb' 0 32 q))
  | _ => dec .w64 (Request.data q)

/-- The response of an operation of a codec built as `c`. -/
def answer (c : Config) : Instr → Response
  | .ieeeSingleToHex a => lift32 (enc c .w32 a)
  | .ieeeDoubleToHex a => enc c .w64 a
  | .hexToIeeeSingle h => lift32 (dec .w32 h)
  | .hexToIeeeDouble h => dec .w64 h

end Sys2Proof.Machine
end

