-- ==== Sys2Proof/Safety.lean ====
section
/-! DEFINITION. What counts as a safe run, in the terms the claims use. -/

namespace Sys2Proof.Machine

/-- A run is safe when it never faults and is never refused, however long it is (10_state.md R29: "no request
hangs, faults or is refused"). -/
def SafeRun (s : State) : Prop := ∀ k, ∃ t, Host.Core.run Sys2Proof.core k s = .next t

/-- Every response delivered is the response to its own request, in request order (R29, 20_memory.md R44). -/
def State.Faithful (s : State) : Prop := s.responses = s.accepted.map (hfc s.config)

/-- What a requester may conclude from the response to its own request, whatever the build:
RangeError answers exactly the double-precision encodes with E ≥ 1275 (40_encode.md R115), so no decode
reports it (60_exceptions.md R202), and the result of a 32-bit operation has RESULT[63:32] = 0 (R63). -/
structure TransactionOk (q : Request) (r : Response) : Prop where
  rangeError_iff : r = .rangeError ↔ Request.op q = 0b01#2 ∧ 1275 ≤ ieeeExp .w64 (Request.data q)
  upper_zero : ∀ v, r = .ok v → (Request.op q).getLsbD 0 = false → BitVec.extractLsb' 32 32 v = 0#32

/-- Every transaction of the history is one that `TransactionOk` describes, and each accepted request has
exactly one response (R44). -/
def State.TransactionsOk (s : State) : Prop := List.Forall₂ TransactionOk s.accepted s.responses

end Sys2Proof.Machine
end

