-- ==== Sys2Proof/Certificates/Slice0/Obligations.lean ====
section
/-! DEFINITION. What is claimed of the HexFloat codec, for the provers. Each docstring names the rule of
spec/ that the claim formalises. -/

open Sys2Proof Sys2Proof.Machine

/-! ### Request words and the opcode map -/

/-- R62: OP[1] is the direction and OP[0] the width. -/
def Obligations.OpBitsSelectDirectionAndWidth : Prop :=
  ∀ q : Request,
    (decode q).direction = (if q.getLsbD 65 then .hexToIeee else .ieeeToHex) ∧
    (decode q).width = (if q.getLsbD 64 then .w64 else .w32)

/-- R63, R64, R66: each OP value selects its operation, with `DATA[31:0]` or `DATA[63:0]` as operand. -/
def Obligations.EachOpValueSelectsItsOperation : Prop :=
  ∀ d : BitVec 64,
    decode (0b00#2 ++ d) = .ieeeSingleToHex (d.extractLsb' 0 32) ∧
    decode (0b01#2 ++ d) = .ieeeDoubleToHex d ∧
    decode (0b10#2 ++ d) = .hexToIeeeSingle (d.extractLsb' 0 32) ∧
    decode (0b11#2 ++ d) = .hexToIeeeDouble d

/-- Request words written out in 95_test_vectors.md §4 (programs P1, P2, P4) decode to their operations. -/
def Obligations.ProgramWordsDecode : Prop :=
  decode 0x0000000003F800000#66 = .ieeeSingleToHex 0x3F800000#32 ∧
  decode 0x14FAFFFFFFFFFFFFF#66 = .ieeeDoubleToHex 0x4FAFFFFFFFFFFFFF#64 ∧
  decode 0x20000000041100000#66 = .hexToIeeeSingle 0x41100000#32 ∧
  decode 0x37FFFFFFFFFFFFFF8#66 = .hexToIeeeDouble 0x7FFFFFFFFFFFFFF8#64 ∧
  decode 0x0DEADBEEF3F800000#66 = .ieeeSingleToHex 0x3F800000#32

/-- R60-R66: decoding an encoded operation gives it back with its whole operand, and encoding a decoded
request gives back its word, but for `DATA[63:32]` of a 32-bit request, which is ignored (R63). -/
def Obligations.DecodeAndEncodeAgree : Prop :=
  (∀ i : Instr, i.wellFormed = true → decode (encode i) = i) ∧
  ∀ q : Request, encode (decode q) =
    if q.getLsbD 64 then q else q &&& 0x300000000FFFFFFFF#66

/-- R60: the request word is OP and DATA; the response word is RANGE_ERROR and RESULT, whatever is driven
on RESULT when RANGE_ERROR = 1. -/
def Obligations.RequestAndResponseWordLayout : Prop :=
  (∀ q : Request, q = (Request.op q ++ Request.data q : BitVec 66)) ∧
  ∀ (driven : Data) (r : Response),
    (Response.word driven r).getLsbD 64 = r.rangeErrorFlag ∧
    ∀ v, r.value = some v → (Response.word driven r).extractLsb' 0 64 = v

/-- R71: the field masks select the fields of R67-R70. -/
def Obligations.FieldMasksSelectTheFields : Prop :=
  ∀ (w : Width) (a : Word w),
    (a &&& signMask w).toNat = (signBit w a).toNat * 2 ^ (w.bits - 1) ∧
    (a &&& nonSignMask w).toNat = nonSign w a ∧
    (a &&& ieeeExpMask w).toNat = ieeeExp w a * 2 ^ w.mw ∧
    (a &&& ieeeFracMask w).toNat = ieeeFrac w a ∧
    (implicitBitMask w).toNat = 2 ^ w.mw ∧
    (a &&& hexExpMask w).toNat = hexExp w a * 2 ^ w.hw ∧
    (a &&& hexMantMask w).toNat = hexMant w a ∧
    (a &&& topNibbleMask w).toNat = topNibble w (hexMant w a) * 2 ^ (w.hw - 4) ∧
    (a &&& topBitMask w).toNat = (topBit w (hexMant w a)).toNat * 2 ^ (w.hw - 1)

/-! ### The machine -/

/-- R29, R61: with a request waiting, one step accepts it and runs the operation it decodes to. -/
def Obligations.StepRunsTheDecodedRequest : Prop :=
  ∀ (s : State) (q : Request) (rest : List Request), s.requests = q :: rest →
    step s = exec (decode q) { s with requests := rest, accepted := s.accepted ++ [q] }

/-- The model's choice (log entry 2): with no request waiting, a step changes nothing. -/
def Obligations.StepWithoutARequestIdles : Prop :=
  ∀ s : State, s.requests = [] → step s = .next s

/-- R240, R8: right after reset there is no request and no response, and the build is SIGNED; the next
request presented is then answered as at any other time. -/
def Obligations.ResetHoldsNoTransaction : Prop :=
  State.reset.requests = [] ∧ State.reset.accepted = [] ∧ State.reset.responses = [] ∧
  State.reset.config.encUnderflowZero = .signed ∧
  ∀ q : Request, step (State.reset.presentNext q) =
    .next { config := State.reset.config, requests := [], accepted := [q],
            responses := [hfc State.reset.config q] }

/-- R29: a request gives exactly one response, HFC of the request and of nothing else in the state. -/
def Obligations.EachRequestGetsItsResponse : Prop :=
  ∀ (s : State) (q : Request) (rest : List Request), s.requests = q :: rest →
    step s = .next { config := s.config, requests := rest, accepted := s.accepted ++ [q],
                     responses := s.responses ++ [hfc s.config q] }

/-- R44, R243: k steps answer the k oldest requests, in request order, each by its own response. -/
def Obligations.RunAnswersRequestsInOrder : Prop :=
  ∀ (s : State) (k : Nat), k ≤ s.requests.length →
    Host.Core.run Sys2Proof.core k s =
      .next { config := s.config, requests := s.requests.drop k,
              accepted := s.accepted ++ s.requests.take k,
              responses := s.responses ++ (s.requests.take k).map (hfc s.config) }

/-- R44: "every interleaving of requests from several requesters gives each requester the responses to its
own requests". `owners` says who presented each waiting request. -/
def Obligations.InterleavingGivesEachRequesterItsResponses : Prop :=
  ∀ (s : State) (owners : List Nat), owners.length = s.requests.length →
    ∃ t : State, Host.Core.run Sys2Proof.core s.requests.length s = .next t ∧
      ∀ o : Nat,
        (((owners.zip (t.responses.drop s.responses.length)).filter (fun p => p.1 == o)).map Prod.snd) =
        (((owners.zip s.requests).filter (fun p => p.1 == o)).map (fun p => hfc s.config p.2))

/-- R206, R44: whatever was answered before, a RangeError too, the next request gets the same response. -/
def Obligations.ResponseIgnoresHistory : Prop :=
  ∀ (s t : State) (q : Request) (rs rt : List Request),
    s.config = t.config → s.requests = q :: rs → t.requests = q :: rt →
    ∃ (s' t' : State) (r : Response), step s = .next s' ∧ step t = .next t' ∧
      s'.responses = s.responses ++ [r] ∧ t'.responses = t.responses ++ [r]

/-- R29, R72: no run hangs on a fault or a refusal, from any state. -/
def Obligations.EveryRunIsSafe : Prop := ∀ s : State, SafeRun s

/-- R29, R44: every step keeps that each response delivered is the response to its own request. -/
def Obligations.StepKeepsResponsesFaithful : Prop :=
  ∀ s t : State, s.Faithful → step s = .next t → t.Faithful

/-- R26, R63, R115, R202: every step keeps that RangeError answers exactly the 64-bit encodes with E ≥ 1275
and that 32-bit results have RESULT[63:32] = 0. -/
def Obligations.StepKeepsTransactionsOk : Prop :=
  ∀ s t : State, s.TransactionsOk → step s = .next t → t.TransactionsOk

/-- Both invariants hold at reset. -/
def Obligations.ResetMeetsTheInvariants : Prop :=
  State.reset.Faithful ∧ State.reset.TransactionsOk

/-- R20, R26, R205: an operation that answers a next state has delivered one response behind the earlier
ones and changed nothing else (the codec has no register and no memory). -/
def Obligations.OperationsOnlyDeliverAResponse : Prop :=
  ∀ (i : Instr) (s t : State), exec i s = .next t →
    t.config = s.config ∧ t.requests = s.requests ∧ t.accepted = s.accepted ∧
    ∃ r, t.responses = s.responses ++ [r]

/-- R63: a 32-bit request's response is the zero-extended 32-bit result, the same for every `DATA[63:32]`. -/
def Obligations.UpperDataOfSingleRequestsIsIgnored : Prop :=
  ∀ (s : State) (q q' : Request), Request.op q = Request.op q' → (Request.op q).getLsbD 0 = false →
    (Request.data q).extractLsb' 0 32 = (Request.data q').extractLsb' 0 32 →
    ∃ v : BitVec 64, v.extractLsb' 32 32 = 0#32 ∧
      step (s.presentNext q) = .next { s with
        accepted := s.accepted ++ [q], responses := s.responses ++ [.ok v] } ∧
      step (s.presentNext q') = .next { s with
        accepted := s.accepted ++ [q'], responses := s.responses ++ [.ok v] }

/-- R29, R111, R112, R150, R151: the four operations complete with the response of their algorithm. -/
def Obligations.OperationsRunTheirAlgorithm : Prop :=
  ∀ (s : State),
    (∀ a, exec (.ieeeSingleToHex a) s =
      .next { s with responses := s.responses ++ [lift32 (enc s.config .w32 a)] }) ∧
    (∀ a, exec (.ieeeDoubleToHex a) s =
      .next { s with responses := s.responses ++ [enc s.config .w64 a] }) ∧
    (∀ h, exec (.hexToIeeeSingle h) s =
      .next { s with responses := s.responses ++ [lift32 (dec .w32 h)] }) ∧
    (∀ h, exec (.hexToIeeeDouble h) s =
      .next { s with responses := s.responses ++ [dec .w64 h] })

/-! ### Encode: IEEE-754 to hex-float -/

/-- R101: an operand whose non-sign bits are all zero is returned unchanged. -/
def Obligations.EncodeReturnsZerosUnchanged : Prop :=
  ∀ s : State,
    (∀ a : BitVec 32, a.extractLsb' 0 31 = 0#31 →
      exec (.ieeeSingleToHex a) s = .next { s with responses := s.responses ++ [.ok (0#32 ++ a)] }) ∧
    (∀ a : BitVec 64, a.extractLsb' 0 63 = 0#63 →
      exec (.ieeeDoubleToHex a) s = .next { s with responses := s.responses ++ [.ok a] })

/-- R103, R106: the rebased exponent and the shift go together, 4(X - 64) = e + sh with sh ≤ 3, and before
renormalization X lies in [33, 97] for W = 32 and in [-191, 321] for W = 64. -/
def Obligations.RebasedExponentMatchesTheShift : Prop :=
  (∀ e : Int, 4 * (rebase e - 64) = e + remainderShift e ∧ remainderShift e ≤ 3) ∧
  (∀ a : Word .w32, 33 ≤ rebase (encExponent .w32 a) ∧ rebase (encExponent .w32 a) ≤ 97) ∧
  (∀ a : Word .w64, -191 ≤ rebase (encExponent .w64 a) ∧ rebase (encExponent .w64 a) ≤ 321)

/-- R104: the significand is 2^MW + f when E ≠ 0 and 2f when E = 0, and fits in MW + 1 bits. -/
def Obligations.SignificandHasItsImplicitBit : Prop :=
  ∀ (w : Width) (E f : Nat), f < 2 ^ w.mw →
    (E ≠ 0 → significand w E f = 2 ^ w.mw + f) ∧
    (E = 0 → significand w E f = 2 * f) ∧
    significand w E f < 2 ^ (w.mw + 1)

/-- R105: the alignment shift is 0 or 3 bits, M fits in HW bits, and with E ≠ 0 its top bit is set. -/
def Obligations.AlignedSignificandFillsTheHexField : Prop :=
  Width.align .w32 = 0 ∧ Width.align .w64 = 3 ∧
  ∀ (w : Width) (E f : Nat), f < 2 ^ w.mw →
    alignToHex w (significand w E f) = significand w E f * 2 ^ w.align ∧
    alignToHex w (significand w E f) < 2 ^ w.hw ∧
    (E ≠ 0 → topBit w (alignToHex w (significand w E f)) = true)

/-- R107: the renormalization loop computes its closed form, loses no bit, and ends at a hex-normalized
mantissa or at 0; it runs only when E = 0, and then takes at most 5 (W = 32) or 13 (W = 64) rounds from
M = f >> 1 or f << 2. -/
def Obligations.RenormalizationMeetsItsClosedForm : Prop :=
  (∀ (w : Width) (M : Nat) (X : Int), M < 2 ^ w.hw →
    renormalize w M X = renormalizeClosed w M X ∧
    (renormalize w M X).1 = M * 16 ^ renormalizeRounds w M ∧
    (renormalize w M X).1 < 2 ^ w.hw ∧
    (M ≠ 0 → topNibble w (renormalize w M X).1 ≠ 0)) ∧
  (∀ (w : Width) (a : Word w), ieeeExp w a ≠ 0 →
    encNormalized w a = (encMantissa w a, rebase (encExponent w a))) ∧
  (∀ a : Word .w32, ieeeExp .w32 a = 0 →
    encMantissa .w32 a = ieeeFrac .w32 a >>> 1 ∧ renormalizeRounds .w32 (encMantissa .w32 a) ≤ 5 ∧
    encNormalized .w32 a = renormalizeClosed .w32 (encMantissa .w32 a) 33) ∧
  (∀ a : Word .w64, ieeeExp .w64 a = 0 →
    encMantissa .w64 a = ieeeFrac .w64 a <<< 2 ∧ renormalizeRounds .w64 (encMantissa .w64 a) ≤ 13 ∧
    encNormalized .w64 a = renormalizeClosed .w64 (encMantissa .w64 a) (-191))

/-- R108, R25, R200: a hex exponent above 127 raises RangeError: the response to the same request, with
RANGE_ERROR = 1, cause code 1 and no value. -/
def Obligations.EncodeOverflowRaisesRangeError : Prop :=
  (∀ (s : State) (a : BitVec 64), nonSign .w64 a ≠ 0 → (encNormalized .w64 a).2 > 127 →
    exec (.ieeeDoubleToHex a) s = .next { s with responses := s.responses ++ [.rangeError] }) ∧
  (∀ (c : Config) (w : Width) (a : Word w), nonSign w a ≠ 0 → (encNormalized w a).2 > 127 →
    enc c w a = .rangeError) ∧
  (Result.rangeError : Response).rangeErrorFlag = true ∧
  (Result.rangeError : Response).causeCode = 1 ∧ (Result.rangeError : Response).value = none

/-- R109: a hex exponent below 0 gives a zero, signed as the build says, and no error; X = 0 does not. -/
def Obligations.EncodeUnderflowReturnsZero : Prop :=
  ∀ (s : State) (a : BitVec 64), nonSign .w64 a ≠ 0 →
    ((encNormalized .w64 a).2 < 0 → s.config.encUnderflowZero = .signed →
      exec (.ieeeDoubleToHex a) s = .next { s with
        responses := s.responses ++ [.ok (BitVec.ofBool (a.getLsbD 63) ++ 0#63)] }) ∧
    ((encNormalized .w64 a).2 < 0 → s.config.encUnderflowZero = .unsigned →
      exec (.ieeeDoubleToHex a) s = .next { s with responses := s.responses ++ [.ok 0#64] }) ∧
    ((encNormalized .w64 a).2 = 0 →
      ∃ v : BitVec 64, hexExp .w64 v = 0 ∧ hexMant .w64 v = (encNormalized .w64 a).1 ∧ hexMant .w64 v ≠ 0 ∧
        exec (.ieeeDoubleToHex a) s = .next { s with responses := s.responses ++ [.ok v] })

/-- R110: with 0 ≤ X ≤ 127 the result is the sign, X and M side by side. -/
def Obligations.EncodeAssemblesSignExponentMantissa : Prop :=
  ∀ s : State,
    (∀ a : BitVec 32, nonSign .w32 a ≠ 0 →
      0 ≤ (encNormalized .w32 a).2 → (encNormalized .w32 a).2 ≤ 127 →
      ∃ h : BitVec 32, h.getLsbD 31 = a.getLsbD 31 ∧
        ((h.extractLsb' 24 7).toNat : Int) = (encNormalized .w32 a).2 ∧
        (h.extractLsb' 0 24).toNat = (encNormalized .w32 a).1 ∧
        exec (.ieeeSingleToHex a) s = .next { s with responses := s.responses ++ [.ok (0#32 ++ h)] }) ∧
    (∀ a : BitVec 64, nonSign .w64 a ≠ 0 →
      0 ≤ (encNormalized .w64 a).2 → (encNormalized .w64 a).2 ≤ 127 →
      ∃ h : BitVec 64, h.getLsbD 63 = a.getLsbD 63 ∧
        ((h.extractLsb' 56 7).toNat : Int) = (encNormalized .w64 a).2 ∧
        (h.extractLsb' 0 56).toNat = (encNormalized .w64 a).1 ∧
        exec (.ieeeDoubleToHex a) s = .next { s with responses := s.responses ++ [.ok h] })

/-- R100-R106 for a 32-bit operand with E ≠ 0: with c = ⌈(E - 126) / 4⌉ the result has the exponent field
64 + c and the mantissa 2^23 + f shifted right by 4c - (E - 126), truncated. -/
def Obligations.SingleEncodeOfNormalOperands : Prop :=
  ∀ (s : State) (a : BitVec 32), ieeeExp .w32 a ≠ 0 →
    ∃ h : BitVec 32, signBit .w32 h = signBit .w32 a ∧
      (hexExp .w32 h : Int) = 64 - ((126 - (ieeeExp .w32 a : Int)) / 4) ∧
      hexMant .w32 h = (2 ^ 23 + ieeeFrac .w32 a) / 2 ^ ((126 - (ieeeExp .w32 a : Int)) % 4).toNat ∧
      exec (.ieeeSingleToHex a) s = .next { s with responses := s.responses ++ [.ok (0#32 ++ h)] }

/-- R112, R116 for a 64-bit operand with 763 ≤ E ≤ 1274: the exponent field is 64 + ⌈(E - 1022) / 4⌉ and
the mantissa is 8(2^52 + f) shifted right with no 1-bit discarded. -/
def Obligations.DoubleEncodeOfInRangeOperands : Prop :=
  ∀ (s : State) (a : BitVec 64), 763 ≤ ieeeExp .w64 a → ieeeExp .w64 a ≤ 1274 →
    ∃ h : BitVec 64, signBit .w64 h = signBit .w64 a ∧
      (hexExp .w64 h : Int) = 64 - ((1022 - (ieeeExp .w64 a : Int)) / 4) ∧
      hexMant .w64 h * 2 ^ ((1022 - (ieeeExp .w64 a : Int)) % 4).toNat = (2 ^ 52 + ieeeFrac .w64 a) * 8 ∧
      exec (.ieeeDoubleToHex a) s = .next { s with responses := s.responses ++ [.ok h] }

/-- R111, R115, R202: for W = 32, X lies in [28, 97], so ENC32 neither raises RangeError nor underflows; the
ends are met at f ∈ {2, 3} with E = 0 and at E = 255. -/
def Obligations.SingleEncodeNeverFails : Prop :=
  (∀ a : BitVec 32, 28 ≤ (encNormalized .w32 a).2 ∧ (encNormalized .w32 a).2 ≤ 97) ∧
  (∀ a : BitVec 32, ieeeExp .w32 a = 0 → (ieeeFrac .w32 a = 2 ∨ ieeeFrac .w32 a = 3) →
    (encNormalized .w32 a).2 = 28) ∧
  (∀ a : BitVec 32, ieeeExp .w32 a = 255 → (encNormalized .w32 a).2 = 97) ∧
  ∀ (s : State) (a : BitVec 32), ∃ v : BitVec 32,
    exec (.ieeeSingleToHex a) s = .next { s with responses := s.responses ++ [.ok (0#32 ++ v)] }

/-- R112, R115, R203: ENC64 answers RangeError exactly when E ≥ 1275. -/
def Obligations.DoubleEncodeRangeErrorExactlyFrom1275 : Prop :=
  ∀ (s : State) (a : BitVec 64),
    exec (.ieeeDoubleToHex a) s = .next { s with responses := s.responses ++ [.rangeError] } ↔
      1275 ≤ ieeeExp .w64 a

/-- R112, R115, R203: a non-zero 64-bit operand underflows exactly when E ≤ 762, and the exponent field is
written in full exactly when 763 ≤ E ≤ 1274. -/
def Obligations.DoubleEncodeUnderflowExactlyTo762 : Prop :=
  ∀ a : BitVec 64, nonSign .w64 a ≠ 0 →
    ((encNormalized .w64 a).2 < 0 ↔ ieeeExp .w64 a ≤ 762) ∧
    (0 ≤ (encNormalized .w64 a).2 ∧ (encNormalized .w64 a).2 ≤ 127 ↔
      763 ≤ ieeeExp .w64 a ∧ ieeeExp .w64 a ≤ 1274)

/-- R115, in value terms (R15): ENC64 raises RangeError exactly for |x| ≥ 2^252 and underflows exactly for
non-zero |x| < 2^-260. -/
def Obligations.DoubleEncodeBoundariesByMagnitude : Prop :=
  ∀ (c : Config) (a : BitVec 64), nonSign .w64 a ≠ 0 →
    (enc c .w64 a = .rangeError ↔ (2 : ℚ) ^ (252 : Int) ≤ ieeeMagnitude .w64 a) ∧
    ((encNormalized .w64 a).2 < 0 ↔ ieeeMagnitude .w64 a < (2 : ℚ) ^ (-260 : Int))

/-- R113: with E ≠ 0, and with E = 0 whenever M ≠ 0 after the remainder shift, the mantissa that is
assembled is hex-normalized. -/
def Obligations.EncodedMantissaIsHexNormalized : Prop :=
  ∀ (w : Width) (a : Word w),
    (ieeeExp w a ≠ 0 → hexNormalized w (encNormalized w a).1 = true) ∧
    (ieeeExp w a = 0 → encMantissa w a ≠ 0 → hexNormalized w (encNormalized w a).1 = true)

/-- R114: infinities and NaNs take no special path: ENC32 answers the finite word with exponent field 97 and
mantissa (2^23 + f) >> 3, ENC64 answers RangeError. -/
def Obligations.EncodeHasNoInfinityOrNaNPath : Prop :=
  ∀ s : State,
    (∀ a : BitVec 32, a.extractLsb' 23 8 = 0xFF#8 →
      exec (.ieeeSingleToHex a) s = .next { s with responses := s.responses ++
        [.ok (0#32 ++ (BitVec.ofBool (a.getLsbD 31) ++ 97#7 ++
          BitVec.ofNat 24 ((2 ^ 23 + (a.extractLsb' 0 23).toNat) / 8)))] }) ∧
    (∀ a : BitVec 64, a.extractLsb' 52 11 = 0x7FF#11 →
      exec (.ieeeDoubleToHex a) s = .next { s with responses := s.responses ++ [.rangeError] })

/-- R116, W = 64: every in-range result denotes exactly the IEEE value. -/
def Obligations.DoubleEncodeIsExact : Prop :=
  ∀ (c : Config) (a : BitVec 64), 763 ≤ ieeeExp .w64 a → ieeeExp .w64 a ≤ 1274 →
    ∃ h : BitVec 64, enc c .w64 a = .ok h ∧ hexValue .w64 h = ieeeValue .w64 a

/-- R116, W = 32: with E ≠ 0 the sh low bits of the significand are discarded and 21 to 24 significant bits
stay; with E = 0 bit 0 of f is discarded; nothing else is lost. -/
def Obligations.SingleEncodeTruncatesTheLowBits : Prop :=
  ∀ (c : Config) (a : BitVec 32), ∃ h : BitVec 32, enc c .w32 a = .ok h ∧
    signBit .w32 h = signBit .w32 a ∧
    (ieeeExp .w32 a ≠ 0 →
      2 ^ 20 ≤ hexMant .w32 h ∧
      hexMagnitude .w32 h =
        (((2 ^ 23 + ieeeFrac .w32 a) / 2 ^ remainderShift (encExponent .w32 a) *
          2 ^ remainderShift (encExponent .w32 a) : Nat) : ℚ) *
          (2 : ℚ) ^ ((ieeeExp .w32 a : Int) - 126 - 23 - 1)) ∧
    (ieeeExp .w32 a = 0 →
      hexMagnitude .w32 h = ((ieeeFrac .w32 a / 2 * 2 : Nat) : ℚ) * (2 : ℚ) ^ (-149 : Int))

/-- R117: for a non-zero operand, flipping the sign bit flips the sign bit of the result and keeps a
RangeError; under UNSIGNED this fails exactly on underflowing operands, where both results are zero. -/
def Obligations.EncodeSignSymmetry : Prop :=
  ∀ (c : Config) (w : Width) (a : Word w), nonSign w a ≠ 0 →
    (c.encUnderflowZero = .signed ∨ 0 ≤ (encNormalized w a).2 →
      (enc c w a = .rangeError ∧ enc c w (a ^^^ signMask w) = .rangeError) ∨
      ∃ h, enc c w a = .ok h ∧ enc c w (a ^^^ signMask w) = .ok (h ^^^ signMask w)) ∧
    (c.encUnderflowZero = .unsigned → (encNormalized w a).2 < 0 →
      enc c w a = .ok 0 ∧ enc c w (a ^^^ signMask w) = .ok 0)

/-! ### Decode: hex-float to IEEE-754 -/

/-- R141: an operand whose non-sign bits are all zero is returned unchanged. -/
def Obligations.DecodeReturnsZerosUnchanged : Prop :=
  ∀ s : State,
    (∀ h : BitVec 32, h.extractLsb' 0 31 = 0#31 →
      exec (.hexToIeeeSingle h) s = .next { s with responses := s.responses ++ [.ok (0#32 ++ h)] }) ∧
    (∀ h : BitVec 64, h.extractLsb' 0 63 = 0#63 →
      exec (.hexToIeeeDouble h) s = .next { s with responses := s.responses ++ [.ok h] })

/-- R143: e = 4 × (X - 64) lies in [-256, 252]. -/
def Obligations.DecodeExponentRange : Prop :=
  ∀ (w : Width) (h : Word w),
    decExponent w h = 4 * ((hexExp w h : Int) - 64) ∧ -256 ≤ decExponent w h ∧ decExponent w h ≤ 252

/-- R144: the left-normalization loop computes its closed form, loses no bit, and stops at a set top bit or
at EMIN. -/
def Obligations.LeftNormalizationMeetsItsClosedForm : Prop :=
  ∀ (w : Width) (M : Nat) (e : Int), M < 2 ^ w.hw →
    leftNormalize w M e = leftNormalizeClosed w M e ∧
    (leftNormalize w M e).1 = M * 2 ^ leftNormalizeRounds w M e ∧
    (leftNormalize w M e).1 < 2 ^ w.hw ∧
    (topBit w (leftNormalize w M e).1 = true ∨ (leftNormalize w M e).2 ≤ w.emin)

/-- R145: at or below EMIN the denormalization computes its closed form and ends at EMIN, with M = 0 when
the shift reaches HW; above EMIN it does nothing. -/
def Obligations.DenormalizationMeetsItsClosedForm : Prop :=
  ∀ (w : Width) (M : Nat) (e : Int),
    (e ≤ w.emin → denormalize w M e = denormalizeClosed w M e) ∧
    (e ≤ w.emin → M < 2 ^ w.hw → w.hw ≤ denormalizeShift w e → (denormalize w M e).1 = 0) ∧
    (w.emin < e → denormalize w M e = (M, e))

/-- R147: e_n below EMIN - MW gives the correctly signed zero and no error; denormalization and the
alignment drop alone would give the same m = 0 and exponent field 0. -/
def Obligations.DecodeUnderflowReturnsSignedZero : Prop :=
  (∀ (s : State) (h : BitVec 32), nonSign .w32 h ≠ 0 → (decNormalized .w32 h).2 < -149 →
    exec (.hexToIeeeSingle h) s = .next { s with
      responses := s.responses ++ [.ok (0#32 ++ (BitVec.ofBool (h.getLsbD 31) ++ 0#31))] }) ∧
  (∀ (w : Width) (h : Word w), nonSign w h ≠ 0 → (decNormalized w h).2 < w.emin - w.mw →
    dec w h = .ok (signedZero w (signBit w h))) ∧
  (∀ (w : Width) (M : Nat) (e : Int), M < 2 ^ w.hw → e < w.emin - w.mw →
    dropAlignment w (denormalize w M e).1 = 0 ∧ (denormalize w M e).2 + w.bias = 0)

/-- R148: e_n above 128 gives the correctly signed canonical infinity and no error (W = 32; for W = 64
nothing reaches its bound 1024). -/
def Obligations.DecodeOverflowReturnsInfinity : Prop :=
  (∀ (s : State) (h : BitVec 32), nonSign .w32 h ≠ 0 → 128 < (decNormalized .w32 h).2 →
    exec (.hexToIeeeSingle h) s = .next { s with responses := s.responses ++
      [.ok (0#32 ++ (BitVec.ofBool (h.getLsbD 31) ++ 0x7F800000#31))] }) ∧
  (∀ (w : Width) (h : Word w), nonSign w h ≠ 0 → w.emax < (decNormalized w h).2 →
    dec w h = .ok (infinity w (signBit w h))) ∧
  ∀ h : BitVec 64, (decNormalized .w64 h).2 ≤ 252

/-- R149: where neither saturation applies, the result is the sign, the exponent field e + BIAS and the
mantissa less its implicit bit; above EMIN the field lies in [1, 2^EW - 2] and the implicit bit is set, at
EMIN the field is 0 and the mask drops nothing. -/
def Obligations.DecodeAssemblesSignExponentFraction : Prop :=
  ∀ (w : Width) (h : Word w), nonSign w h ≠ 0 →
    w.emin - w.mw ≤ (decNormalized w h).2 → (decNormalized w h).2 ≤ w.emax →
    ∃ a : Word w, dec w h = .ok a ∧ signBit w a = signBit w h ∧
      (w.emin < (decDenormalized w h).2 →
        1 ≤ ieeeExp w a ∧ ieeeExp w a ≤ 2 ^ w.ew - 2 ∧
        (ieeeExp w a : Int) = (decNormalized w h).2 + w.bias ∧
        2 ^ w.mw + ieeeFrac w a = dropAlignment w (decDenormalized w h).1) ∧
      ((decDenormalized w h).2 ≤ w.emin →
        (decDenormalized w h).2 = w.emin ∧ ieeeExp w a = 0 ∧
        ieeeFrac w a = dropAlignment w (decDenormalized w h).1)

/-- R140, R202, R153: DEC32 and DEC64 always answer a value, and it is never a NaN. -/
def Obligations.DecodeNeverFailsNorGivesNaN : Prop :=
  ∀ s : State,
    (∀ h : BitVec 32, ∃ a : BitVec 32,
      ¬(ieeeExp .w32 a = 255 ∧ ieeeFrac .w32 a ≠ 0) ∧
      exec (.hexToIeeeSingle h) s = .next { s with responses := s.responses ++ [.ok (0#32 ++ a)] }) ∧
    (∀ h : BitVec 64, ∃ a : BitVec 64,
      ¬(ieeeExp .w64 a = 2047 ∧ ieeeFrac .w64 a ≠ 0) ∧
      exec (.hexToIeeeDouble h) s = .next { s with responses := s.responses ++ [.ok a] })

/-- R151, R153: for M ≠ 0, e_n = 4(X - 64) - lzc(M) lies in [-311, 252] and DEC64 answers the normal double
with exponent field e_n + 1022 and the 53 top bits of the normalized mantissa. -/
def Obligations.DoubleDecodeOfNonzeroMantissas : Prop :=
  ∀ (s : State) (h : BitVec 64), hexMant .w64 h ≠ 0 →
    ∃ a : BitVec 64,
      (decNormalized .w64 h).2 = decExponent .w64 h - lzc 56 (hexMant .w64 h) ∧
      -311 ≤ (decNormalized .w64 h).2 ∧ (decNormalized .w64 h).2 ≤ 252 ∧
      signBit .w64 a = signBit .w64 h ∧
      (ieeeExp .w64 a : Int) = (decNormalized .w64 h).2 + 1022 ∧
      2 ^ 52 + ieeeFrac .w64 a = hexMant .w64 h * 2 ^ lzc 56 (hexMant .w64 h) / 8 ∧
      exec (.hexToIeeeDouble h) s = .next { s with responses := s.responses ++ [.ok a] }

/-- R150, R153: the outcome of DEC32 for M ≠ 0, by e_n: infinity above 128, a normal float from -125 to
128, a subnormal or a zero from -149 to -126, a zero below. -/
def Obligations.SingleDecodeOutcomesByExponent : Prop :=
  ∀ (s : State) (h : BitVec 32), hexMant .w32 h ≠ 0 →
    ∃ a : BitVec 32, signBit .w32 a = signBit .w32 h ∧
      exec (.hexToIeeeSingle h) s = .next { s with responses := s.responses ++ [.ok (0#32 ++ a)] } ∧
      (128 < (decNormalized .w32 h).2 → ieeeExp .w32 a = 255 ∧ ieeeFrac .w32 a = 0) ∧
      (-126 < (decNormalized .w32 h).2 → (decNormalized .w32 h).2 ≤ 128 →
        (ieeeExp .w32 a : Int) = (decNormalized .w32 h).2 + 126 ∧
        2 ^ 23 + ieeeFrac .w32 a = hexMant .w32 h * 2 ^ lzc 24 (hexMant .w32 h)) ∧
      (-149 ≤ (decNormalized .w32 h).2 → (decNormalized .w32 h).2 ≤ -126 →
        ieeeExp .w32 a = 0 ∧ ieeeFrac .w32 a =
          (decNormalized .w32 h).1 / 2 ^ (1 + (-126 - (decNormalized .w32 h).2).toNat)) ∧
      ((decNormalized .w32 h).2 < -149 → ieeeExp .w32 a = 0 ∧ ieeeFrac .w32 a = 0)

/-- R152, R203: a zero mantissa decodes to the correctly signed zero, whatever the exponent field. -/
def Obligations.DecodeOfZeroMantissaIsSignedZero : Prop :=
  ∀ s : State,
    (∀ h : BitVec 32, hexMant .w32 h = 0 →
      exec (.hexToIeeeSingle h) s = .next { s with
        responses := s.responses ++ [.ok (0#32 ++ (BitVec.ofBool (h.getLsbD 31) ++ 0#31))] }) ∧
    (∀ h : BitVec 64, hexMant .w64 h = 0 →
      exec (.hexToIeeeDouble h) s = .next { s with
        responses := s.responses ++ [.ok (BitVec.ofBool (h.getLsbD 63) ++ 0#63)] })

/-- R154, W = 64: every double with 763 ≤ E ≤ 1274 comes back exactly. -/
def Obligations.DoubleRoundTripIsExact : Prop :=
  ∀ (s t : State) (a : BitVec 64), 763 ≤ ieeeExp .w64 a → ieeeExp .w64 a ≤ 1274 →
    ∃ h : BitVec 64,
      exec (.ieeeDoubleToHex a) s = .next { s with responses := s.responses ++ [.ok h] } ∧
      exec (.hexToIeeeDouble h) t = .next { t with responses := t.responses ++ [.ok a] }

/-- R154, W = 32: a normal float comes back with the sh low bits of its significand cleared, E = 255 as the
infinity of its sign, and E = 0 with bit 0 of f cleared (so f = 1 as a zero). -/
def Obligations.SingleRoundTripClearsTheLostBits : Prop :=
  ∀ (s t : State) (a : BitVec 32),
    ∃ h b : BitVec 32,
      exec (.ieeeSingleToHex a) s = .next { s with responses := s.responses ++ [.ok (0#32 ++ h)] } ∧
      exec (.hexToIeeeSingle h) t = .next { t with responses := t.responses ++ [.ok (0#32 ++ b)] } ∧
      signBit .w32 b = signBit .w32 a ∧ ieeeExp .w32 b = ieeeExp .w32 a ∧
      (1 ≤ ieeeExp .w32 a → ieeeExp .w32 a ≤ 254 →
        ieeeFrac .w32 b = ieeeFrac .w32 a / 2 ^ remainderShift (encExponent .w32 a) *
          2 ^ remainderShift (encExponent .w32 a)) ∧
      (ieeeExp .w32 a = 255 → ieeeFrac .w32 b = 0) ∧
      (ieeeExp .w32 a = 0 → ieeeFrac .w32 b = ieeeFrac .w32 a / 2 * 2)

/-- R155: for every h, DEC(W, h xor signmask) = DEC(W, h) xor signmask. -/
def Obligations.DecodeSignSymmetry : Prop :=
  ∀ (w : Width) (h : Word w), ∃ a : Word w,
    dec w h = .ok a ∧ dec w (h ^^^ signMask w) = .ok (a ^^^ signMask w)

/-- R156: the magnitude of DEC(W, h) is at most that of h, except where the result is infinity by R148. -/
def Obligations.DecodeNeverRoundsUp : Prop :=
  ∀ (w : Width) (h a : Word w), dec w h = .ok a →
    ¬(nonSign w h ≠ 0 ∧ w.emax < (decNormalized w h).2) →
    ieeeMagnitude w a ≤ hexMagnitude w h

/-- R145, R146, R152: decode truncates, so it loses less than one unit in the last place of its result,
for unnormalized operands too. -/
def Obligations.DecodeLosesLessThanOneUnit : Prop :=
  ∀ (w : Width) (h a : Word w), dec w h = .ok a → nonSign w h ≠ 0 →
    (decNormalized w h).2 ≤ w.emax →
    hexMagnitude w h <
      ieeeMagnitude w a + (2 : ℚ) ^ (max (decNormalized w h).2 (w.emin + 1) - w.mw - 1)

/-! ### Assembler notation -/

/-- R75: the source line of an operation assembles to its request word. -/
def Obligations.OperationTextAssembles : Prop :=
  ∀ i : Instr, assembleLine i.text = .ok (encode i)

/-- R75: every alias of a mnemonic assembles to the same request word, and a comment changes nothing. -/
def Obligations.AliasesAssembleAlike : Prop :=
  ∀ (d : Direction) (w : Width) (name : Spelling) (ds : List (BitVec 4)) (comment : List Char),
    ds.length = w.bits / 4 →
    assembleLine (namedLine d w name ds) =
      .ok (requestWord (opBits d w) (BitVec.ofNat 64 (hexNumber ds))) ∧
    assembleLine (namedLine d w name ds ++ ' ' :: ';' :: comment) = assembleLine (namedLine d w name ds)

/-- R76: the generic forms expand to the named ones. -/
def Obligations.GenericFormsExpand : Prop :=
  ∀ (d : Direction) (w : Width) (ds : List (BitVec 4)),
    assembleLine (genericLine d w ds) = assembleLine (namedLine d w .routine ds)

/-- R74, R75: a source with a wrong number of digits or another width is refused, and every other one
assembles to a request of its direction and width. -/
def Obligations.IllFormedSourcesAreRefused : Prop :=
  (∀ src : Source, src.wellFormed = false →
    src.assemble = .error .noSuchWidth ∨ src.assemble = .error .wrongDigitCount) ∧
  (∀ (d : Direction) (w : Width) (name : Spelling) (ds : List (BitVec 4)),
    (Source.named d w name ds).wellFormed = true →
    ∃ q, (Source.named d w name ds).assemble = .ok q ∧ (decode q).direction = d ∧ (decode q).width = w) ∧
  (∀ (d : Direction) (n : Nat) (ds : List (BitVec 4)), (Source.generic d ds n).wellFormed = true →
    ∃ q, (Source.generic d ds n).assemble = .ok q ∧ (decode q).direction = d ∧ (decode q).width.bits = n)

/-- R75: a request word written as 17 hex digits reads back as itself. -/
def Obligations.RequestTextReadsBack : Prop :=
  ∀ q : Request, readRequest (requestText q) = some q
end

