-- ==== Sys2Proof/Laws/Format.lean ====
section
/-! SUPPORT. The laws of the operand formats (30_encoding.md R67-R70): fields are within their widths, an
assembled word has the fields it was assembled from, and a word is its fields assembled. -/

namespace Sys2Proof

@[simp] theorem ew_w32 : Width.ew .w32 = 8 := rfl
@[simp] theorem ew_w64 : Width.ew .w64 = 11 := rfl
@[simp] theorem mw_w32 : Width.mw .w32 = 23 := rfl
@[simp] theorem mw_w64 : Width.mw .w64 = 52 := rfl
@[simp] theorem hw_w32 : Width.hw .w32 = 24 := rfl
@[simp] theorem hw_w64 : Width.hw .w64 = 56 := rfl
@[simp] theorem bias_w32 : Width.bias .w32 = 126 := rfl
@[simp] theorem bias_w64 : Width.bias .w64 = 1022 := rfl
@[simp] theorem align_w32 : Width.align .w32 = 0 := rfl
@[simp] theorem align_w64 : Width.align .w64 = 3 := rfl
@[simp] theorem emin_w32 : Width.emin .w32 = -126 := rfl
@[simp] theorem emin_w64 : Width.emin .w64 = -1022 := rfl
@[simp] theorem emax_w32 : Width.emax .w32 = 128 := rfl
@[simp] theorem emax_w64 : Width.emax .w64 = 1024 := rfl

theorem ieeeExp_lt (w : Width) (a : Word w) : ieeeExp w a < 2 ^ w.ew := BitVec.isLt _
theorem ieeeFrac_lt (w : Width) (a : Word w) : ieeeFrac w a < 2 ^ w.mw := BitVec.isLt _
theorem hexExp_lt (w : Width) (h : Word w) : hexExp w h < 128 := BitVec.isLt _
theorem hexMant_lt (w : Width) (h : Word w) : hexMant w h < 2 ^ w.hw := BitVec.isLt _
theorem nonSign_lt (w : Width) (a : Word w) : nonSign w a < 2 ^ (w.bits - 1) := BitVec.isLt _

/-- The sign bit of a word says whether its value reaches 2^(W-1). -/
theorem signBit_eq_decide (w : Width) (a : Word w) :
    signBit w a = decide (2 ^ (w.bits - 1) ≤ a.toNat) := by
  cases w <;> exact BitVec.msb_eq_decide a

theorem nonSign_eq_mod (w : Width) (a : Word w) : nonSign w a = a.toNat % 2 ^ (w.bits - 1) := by
  simp [nonSign]

theorem ieeeExp_eq (w : Width) (a : Word w) : ieeeExp w a = a.toNat / 2 ^ w.mw % 2 ^ w.ew := by
  simp [ieeeExp, Nat.shiftRight_eq_div_pow]

theorem ieeeFrac_eq (w : Width) (a : Word w) : ieeeFrac w a = a.toNat % 2 ^ w.mw := by
  simp [ieeeFrac]

theorem hexExp_eq (w : Width) (h : Word w) : hexExp w h = h.toNat / 2 ^ w.hw % 128 := by
  rw [hexExp, BitVec.extractLsb'_toNat, Nat.shiftRight_eq_div_pow]; rfl

theorem hexMant_eq (w : Width) (h : Word w) : hexMant w h = h.toNat % 2 ^ w.hw := by
  simp [hexMant]

/-- A word's value, from its sign bit and its other bits. -/
theorem toNat_eq_sign (w : Width) (a : Word w) :
    a.toNat = (signBit w a).toNat * 2 ^ (w.bits - 1) + nonSign w a := by
  have h : a.toNat < 2 ^ (w.bits - 1) * 2 := by
    cases w <;> exact a.isLt
  rw [signBit_eq_decide, nonSign_eq_mod]
  by_cases hs : 2 ^ (w.bits - 1) ≤ a.toNat
  · rw [decide_eq_true hs]
    cases w <;> simp at h hs ⊢ <;> omega
  · rw [decide_eq_false hs]
    cases w <;> simp at h hs ⊢ <;> omega

/-- A word is determined by its sign bit and its other bits. -/
theorem word_ext {w : Width} {a b : Word w} (hs : signBit w a = signBit w b)
    (hn : nonSign w a = nonSign w b) : a = b :=
  BitVec.eq_of_toNat_eq (by rw [toNat_eq_sign, toNat_eq_sign w b, hs, hn])

/-- The non-sign bits are the IEEE fields side by side (R67, R68). -/
theorem nonSign_eq_ieee (w : Width) (a : Word w) :
    nonSign w a = ieeeExp w a * 2 ^ w.mw + ieeeFrac w a := by
  rw [nonSign_eq_mod, ieeeExp_eq, ieeeFrac_eq]
  cases w <;> simp <;> omega

/-- The non-sign bits are the hex fields side by side (R69, R70). -/
theorem nonSign_eq_hex (w : Width) (h : Word w) :
    nonSign w h = hexExp w h * 2 ^ w.hw + hexMant w h := by
  rw [nonSign_eq_mod, hexExp_eq, hexMant_eq]
  cases w <;> simp <;> omega

/-- The value of a word put together from three fields. -/
theorem toNat_append3 {n k : Nat} (s : Bool) (x : BitVec n) (y : BitVec k) :
    (BitVec.ofBool s ++ x ++ y).toNat = (s.toNat * 2 ^ n + x.toNat) * 2 ^ k + y.toNat := by
  have hx := x.isLt
  have hy := y.isLt
  rw [BitVec.toNat_append, BitVec.toNat_append, ← Nat.shiftLeft_add_eq_or_of_lt hy,
    ← Nat.shiftLeft_add_eq_or_of_lt hx, Nat.shiftLeft_eq, Nat.shiftLeft_eq, BitVec.toNat_ofBool]

/-- The value of an assembled IEEE word, for fields within their widths. -/
theorem toNat_assembleIeee (w : Width) (s : Bool) (E m : Nat) (hE : E < 2 ^ w.ew) :
    (assembleIeee w s (E : Int) m).toNat =
      s.toNat * 2 ^ (w.bits - 1) + E * 2 ^ w.mw + m % 2 ^ w.mw := by
  rw [assembleIeee, BitVec.toNat_cast, toNat_append3, BitVec.ofInt_natCast, BitVec.toNat_ofNat,
    BitVec.toNat_ofNat, Nat.mod_eq_of_lt hE]
  cases w <;> simp <;> omega

/-- The value of an assembled hex word, for fields within their widths. -/
theorem toNat_assembleHex (w : Width) (s : Bool) (X M : Nat) (hX : X < 128) :
    (assembleHex w s (X : Int) M).toNat =
      s.toNat * 2 ^ (w.bits - 1) + X * 2 ^ w.hw + M % 2 ^ w.hw := by
  rw [assembleHex, BitVec.toNat_cast, toNat_append3, BitVec.ofInt_natCast, BitVec.toNat_ofNat,
    BitVec.toNat_ofNat, Nat.mod_eq_of_lt (show X < 2 ^ hexExpWidth from hX)]
  cases w <;> simp [hexExpWidth] <;> omega

theorem toNat_signedZero (w : Width) (s : Bool) :
    (signedZero w s).toNat = s.toNat * 2 ^ (w.bits - 1) := by
  cases w <;> cases s <;> rfl

theorem toNat_infinity (w : Width) (s : Bool) :
    (infinity w s).toNat = s.toNat * 2 ^ (w.bits - 1) + (2 ^ w.ew - 1) * 2 ^ w.mw := by
  cases w <;> cases s <;> rfl

theorem toNat_signMask (w : Width) : (signMask w).toNat = 2 ^ (w.bits - 1) := by
  cases w <;> rfl

/-- An assembled IEEE word has the sign it was assembled from, whatever the fields. -/
@[simp] theorem signBit_assembleIeee (w : Width) (s : Bool) (Eo : Int) (m : Nat) :
    signBit w (assembleIeee w s Eo m) = s := by
  rw [signBit_eq_decide, assembleIeee, BitVec.toNat_cast, toNat_append3]
  have h1 := (BitVec.ofInt w.ew Eo).isLt
  have h2 := (BitVec.ofNat w.mw m).isLt
  rw [Bool.eq_iff_iff, decide_eq_true_iff]
  cases w <;> cases s <;> simp at * <;> omega

/-- An assembled hex word has the sign it was assembled from, whatever the fields. -/
@[simp] theorem signBit_assembleHex (w : Width) (s : Bool) (X : Int) (M : Nat) :
    signBit w (assembleHex w s X M) = s := by
  rw [signBit_eq_decide, assembleHex, BitVec.toNat_cast, toNat_append3]
  have h1 := (BitVec.ofInt hexExpWidth X).isLt
  have h2 := (BitVec.ofNat w.hw M).isLt
  rw [Bool.eq_iff_iff, decide_eq_true_iff]
  cases w <;> cases s <;> simp [hexExpWidth] at * <;> omega

@[simp] theorem signBit_signedZero (w : Width) (s : Bool) : signBit w (signedZero w s) = s := by
  cases w <;> cases s <;> rfl

@[simp] theorem signBit_infinity (w : Width) (s : Bool) : signBit w (infinity w s) = s := by
  cases w <;> cases s <;> rfl

@[simp] theorem nonSign_signedZero (w : Width) (s : Bool) : nonSign w (signedZero w s) = 0 := by
  cases w <;> cases s <;> rfl

/-- A word whose other bits are all zero is the signed zero of its sign. -/
theorem eq_signedZero_of_nonSign (w : Width) (a : Word w) (h : nonSign w a = 0) :
    a = signedZero w (signBit w a) :=
  word_ext (by simp) (by simp [h])

/-- The exponent field of an assembled hex word. -/
theorem hexExp_assembleHex (w : Width) (s : Bool) (X M : Nat) (hX : X < 128) :
    hexExp w (assembleHex w s (X : Int) M) = X := by
  rw [hexExp_eq, toNat_assembleHex w s X M hX]
  cases w <;> cases s <;> simp <;> omega

/-- The mantissa field of an assembled hex word. -/
theorem hexMant_assembleHex (w : Width) (s : Bool) (X M : Nat) (hX : X < 128) :
    hexMant w (assembleHex w s (X : Int) M) = M % 2 ^ w.hw := by
  rw [hexMant_eq, toNat_assembleHex w s X M hX]
  cases w <;> cases s <;> simp <;> omega

/-- The exponent field of an assembled IEEE word. -/
theorem ieeeExp_assembleIeee (w : Width) (s : Bool) (E m : Nat) (hE : E < 2 ^ w.ew) :
    ieeeExp w (assembleIeee w s (E : Int) m) = E := by
  rw [ieeeExp_eq, toNat_assembleIeee w s E m hE]
  cases w <;> cases s <;> simp at hE ⊢ <;> omega

/-- The fraction field of an assembled IEEE word. -/
theorem ieeeFrac_assembleIeee (w : Width) (s : Bool) (E m : Nat) (hE : E < 2 ^ w.ew) :
    ieeeFrac w (assembleIeee w s (E : Int) m) = m % 2 ^ w.mw := by
  rw [ieeeFrac_eq, toNat_assembleIeee w s E m hE]
  cases w <;> cases s <;> simp <;> omega

/-- A word is its IEEE fields assembled (R67, R68). -/
theorem assembleIeee_fields (w : Width) (a : Word w) :
    assembleIeee w (signBit w a) (ieeeExp w a : Int) (ieeeFrac w a) = a := by
  apply BitVec.eq_of_toNat_eq
  rw [toNat_assembleIeee w _ _ _ (ieeeExp_lt w a), toNat_eq_sign w a, nonSign_eq_ieee,
    Nat.mod_eq_of_lt (ieeeFrac_lt w a)]
  omega

/-- A word is its hex fields assembled (R69, R70). -/
theorem assembleHex_fields (w : Width) (h : Word w) :
    assembleHex w (signBit w h) (hexExp w h : Int) (hexMant w h) = h := by
  apply BitVec.eq_of_toNat_eq
  rw [toNat_assembleHex w _ _ _ (hexExp_lt w h), toNat_eq_sign w h, nonSign_eq_hex,
    Nat.mod_eq_of_lt (hexMant_lt w h)]
  omega

/-- The signed zero in the hex format. -/
theorem signedZero_eq_assembleHex (w : Width) (s : Bool) :
    signedZero w s = assembleHex w s 0 0 := by
  cases w <;> cases s <;> rfl

/-- The signed zero in the IEEE format. -/
theorem signedZero_eq_assembleIeee (w : Width) (s : Bool) :
    signedZero w s = assembleIeee w s 0 0 := by
  cases w <;> cases s <;> rfl

/-- The infinity in the IEEE format: the exponent field all ones, the fraction zero. -/
theorem infinity_eq_assembleIeee (w : Width) (s : Bool) :
    infinity w s = assembleIeee w s ((2 ^ w.ew - 1 : Nat) : Int) 0 := by
  cases w <;> cases s <;> rfl

/-- Flipping the sign bit flips the sign and nothing else. -/
@[simp] theorem signBit_xor_signMask (w : Width) (a : Word w) :
    signBit w (a ^^^ signMask w) = !signBit w a := by
  cases w <;> simp [signBit, signMask]

@[simp] theorem nonSign_xor_signMask (w : Width) (a : Word w) :
    nonSign w (a ^^^ signMask w) = nonSign w a := by
  have h : (signMask w).extractLsb' 0 (w.bits - 1) = 0#_ := by cases w <;> rfl
  rw [nonSign, nonSign, BitVec.extractLsb'_xor, h, BitVec.xor_zero]

@[simp] theorem ieeeExp_xor_signMask (w : Width) (a : Word w) :
    ieeeExp w (a ^^^ signMask w) = ieeeExp w a := by
  have h : (signMask w).extractLsb' w.mw w.ew = 0#_ := by cases w <;> rfl
  rw [ieeeExp, ieeeExp, BitVec.extractLsb'_xor, h, BitVec.xor_zero]

@[simp] theorem ieeeFrac_xor_signMask (w : Width) (a : Word w) :
    ieeeFrac w (a ^^^ signMask w) = ieeeFrac w a := by
  have h : (signMask w).extractLsb' 0 w.mw = 0#_ := by cases w <;> rfl
  rw [ieeeFrac, ieeeFrac, BitVec.extractLsb'_xor, h, BitVec.xor_zero]

@[simp] theorem hexExp_xor_signMask (w : Width) (a : Word w) :
    hexExp w (a ^^^ signMask w) = hexExp w a := by
  have h : (signMask w).extractLsb' w.hw hexExpWidth = 0#_ := by cases w <;> rfl
  rw [hexExp, hexExp, BitVec.extractLsb'_xor, h, BitVec.xor_zero]

@[simp] theorem hexMant_xor_signMask (w : Width) (a : Word w) :
    hexMant w (a ^^^ signMask w) = hexMant w a := by
  have h : (signMask w).extractLsb' 0 w.hw = 0#_ := by cases w <;> rfl
  rw [hexMant, hexMant, BitVec.extractLsb'_xor, h, BitVec.xor_zero]

end Sys2Proof
end

