-- ==== Sys2Proof/Laws/Arith.lean ====
section
/-! SUPPORT. The laws of leading-zero counts and of the top bits of a hex mantissa (00_scope.md R10, R14),
on which the three loops of the codec rest. -/

namespace Sys2Proof

/-- Doubling a non-zero number k times raises its leading bit by k. -/
theorem log2_mul_two_pow (v k : Nat) (h : v ≠ 0) : (v * 2 ^ k).log2 = v.log2 + k := by
  rw [Nat.log2_eq_iff (by positivity)]
  constructor
  · rw [pow_add]
    exact Nat.mul_le_mul_right _ (Nat.log2_self_le h)
  · calc v * 2 ^ k < 2 ^ (v.log2 + 1) * 2 ^ k :=
        Nat.mul_lt_mul_of_pos_right Nat.lt_log2_self (by positivity)
      _ = 2 ^ (v.log2 + k + 1) := by rw [← pow_add]; congr 1; omega

/-- Shifting out the leading zeros of a non-zero n-bit number sets its top bit and loses nothing. -/
theorem lzc_bounds (n v : Nat) (h0 : v ≠ 0) (hv : v < 2 ^ n) :
    2 ^ (n - 1) ≤ v * 2 ^ lzc n v ∧ v * 2 ^ lzc n v < 2 ^ n ∧ lzc n v < n := by
  have h3 : v.log2 < n := (Nat.log2_lt h0).2 hv
  rw [lzc, if_neg h0]
  refine ⟨?_, ?_, by omega⟩
  · calc 2 ^ (n - 1) = 2 ^ v.log2 * 2 ^ (n - 1 - v.log2) := by rw [← pow_add]; congr 1; omega
      _ ≤ _ := Nat.mul_le_mul_right _ (Nat.log2_self_le h0)
  · calc v * 2 ^ (n - 1 - v.log2) < 2 ^ (v.log2 + 1) * 2 ^ (n - 1 - v.log2) :=
        Nat.mul_lt_mul_of_pos_right Nat.lt_log2_self (by positivity)
      _ = 2 ^ n := by rw [← pow_add]; congr 1; omega

/-- A number has k leading zeros exactly when it fits in n - k bits. -/
theorem lt_two_pow_iff_le_lzc (n v k : Nat) (h0 : v ≠ 0) (hv : v < 2 ^ n) :
    v < 2 ^ (n - k) ↔ k ≤ lzc n v := by
  have h3 : v.log2 < n := (Nat.log2_lt h0).2 hv
  rw [← Nat.log2_lt h0, lzc, if_neg h0]
  omega

/-- Each left shift takes away one leading zero. -/
theorem lzc_mul_two_pow (n v k : Nat) (h0 : v ≠ 0) : lzc n (v * 2 ^ k) = lzc n v - k := by
  rw [lzc, lzc, if_neg h0, if_neg (by positivity), log2_mul_two_pow v k h0]
  omega

/-- The top nibble of a hex mantissa is zero exactly when the mantissa is below 2^(HW-4). -/
theorem topNibble_eq_zero_iff (w : Width) (M : Nat) (h : M < 2 ^ w.hw) :
    topNibble w M = 0 ↔ M < 2 ^ (w.hw - 4) := by
  rw [topNibble, Nat.shiftRight_eq_div_pow]
  cases w <;> simp at * <;> omega

/-- The top bit of a hex mantissa is clear exactly when the mantissa is below 2^(HW-1). -/
theorem topBit_eq_false_iff (w : Width) (M : Nat) (h : M < 2 ^ w.hw) :
    topBit w M = false ↔ M < 2 ^ (w.hw - 1) := by
  rw [topBit, Nat.testBit_eq_decide_div_mod_eq, decide_eq_false_iff_not]
  cases w
  · change ¬M / 2 ^ 23 % 2 = 1 ↔ M < 2 ^ 23
    simp at h
    omega
  · change ¬M / 2 ^ 55 % 2 = 1 ↔ M < 2 ^ 55
    simp at h
    omega

end Sys2Proof
end

