-- ==== Sys2Proof/Laws/Codec.lean ====
section
/-! SUPPORT. The outcomes of the two algorithms, said once (60_exceptions.md R204: one operation has exactly
one outcome). -/

namespace Sys2Proof.Machine

/-- ENC(W, a) ends in exactly one of four ways: the zero bypass, RangeError, underflow or assembly. -/
theorem enc_cases (c : Config) (w : Width) (a : Word w) :
    (nonSign w a = 0 ∧ enc c w a = .ok a) ∨
    (nonSign w a ≠ 0 ∧ 127 < (encNormalized w a).2 ∧ enc c w a = .rangeError) ∨
    (nonSign w a ≠ 0 ∧ (encNormalized w a).2 < 0 ∧
      enc c w a = .ok (underflowZero c w (signBit w a))) ∨
    (nonSign w a ≠ 0 ∧ 0 ≤ (encNormalized w a).2 ∧ (encNormalized w a).2 ≤ 127 ∧
      enc c w a = .ok (assembleHex w (signBit w a) (encNormalized w a).2 (encNormalized w a).1)) := by
  by_cases h0 : nonSign w a = 0
  · exact .inl ⟨h0, if_pos h0⟩
  · by_cases h1 : (encNormalized w a).2 > hexExpMax
    · exact .inr (.inl ⟨h0, h1, by rw [enc, if_neg h0, if_pos h1]⟩)
    · by_cases h2 : (encNormalized w a).2 < 0
      · exact .inr (.inr (.inl ⟨h0, h2, by rw [enc, if_neg h0, if_neg h1, if_pos h2]⟩))
      · exact .inr (.inr (.inr ⟨h0, not_lt.1 h2, not_lt.1 h1,
          by rw [enc, if_neg h0, if_neg h1, if_neg h2]⟩))

/-- DEC(W, h) ends in exactly one of four ways: the zero bypass, underflow, overflow or assembly. -/
theorem dec_cases (w : Width) (h : Word w) :
    (nonSign w h = 0 ∧ dec w h = .ok h) ∨
    (nonSign w h ≠ 0 ∧ (decNormalized w h).2 < w.emin - w.mw ∧
      dec w h = .ok (signedZero w (signBit w h))) ∨
    (nonSign w h ≠ 0 ∧ w.emin - w.mw ≤ (decNormalized w h).2 ∧ w.emax < (decNormalized w h).2 ∧
      dec w h = .ok (infinity w (signBit w h))) ∨
    (nonSign w h ≠ 0 ∧ w.emin - w.mw ≤ (decNormalized w h).2 ∧ (decNormalized w h).2 ≤ w.emax ∧
      dec w h = .ok (assembleIeee w (signBit w h) ((decDenormalized w h).2 + w.bias)
        (dropAlignment w (decDenormalized w h).1))) := by
  by_cases h0 : nonSign w h = 0
  · exact .inl ⟨h0, if_pos h0⟩
  · by_cases h1 : (decNormalized w h).2 < w.emin - w.mw
    · exact .inr (.inl ⟨h0, h1, by rw [dec, if_neg h0, if_pos h1]⟩)
    · by_cases h2 : (decNormalized w h).2 > w.emax
      · exact .inr (.inr (.inl ⟨h0, not_lt.1 h1, h2, by rw [dec, if_neg h0, if_neg h1, if_pos h2]⟩))
      · exact .inr (.inr (.inr ⟨h0, not_lt.1 h1, not_lt.1 h2,
          by rw [dec, if_neg h0, if_neg h1, if_neg h2]⟩))

/-- UFZERO(s) of a SIGNED build (R109). -/
theorem underflowZero_signed (c : Config) (w : Width) (s : Bool) (h : c.encUnderflowZero = .signed) :
    underflowZero c w s = signedZero w s := by
  rw [underflowZero, h]

/-- UFZERO(s) of an UNSIGNED build (R109). -/
theorem underflowZero_unsigned (c : Config) (w : Width) (s : Bool) (h : c.encUnderflowZero = .unsigned) :
    underflowZero c w s = 0 := by
  rw [underflowZero, h]

end Sys2Proof.Machine
end

