-- ==== Sys2Proof/Laws/Decode.lean ====
section
/-! SUPPORT. The laws of request words (30_encoding.md R60-R64): the fields of a word put together from OP
and DATA. -/

namespace Sys2Proof

/-- The value of two words side by side. -/
theorem toNat_append_add {n k : Nat} (x : BitVec n) (y : BitVec k) :
    (x ++ y).toNat = x.toNat * 2 ^ k + y.toNat := by
  rw [BitVec.toNat_append, ← Nat.shiftLeft_add_eq_or_of_lt y.isLt, Nat.shiftLeft_eq]

theorem toNat_op (q : Request) : (Request.op q).toNat = q.toNat / 2 ^ 64 := by
  have := q.isLt
  rw [Request.op, BitVec.extractLsb'_toNat, Nat.shiftRight_eq_div_pow]
  omega

theorem toNat_data (q : Request) : (Request.data q).toNat = q.toNat % 2 ^ 64 := by
  simp [Request.data]

@[simp] theorem op_requestWord (o : BitVec 2) (d : Data) : Request.op (requestWord o d) = o := by
  apply BitVec.eq_of_toNat_eq
  rw [toNat_op, requestWord, toNat_append_add]
  have := o.isLt
  have := d.isLt
  omega

@[simp] theorem data_requestWord (o : BitVec 2) (d : Data) : Request.data (requestWord o d) = d := by
  apply BitVec.eq_of_toNat_eq
  rw [toNat_data, requestWord, toNat_append_add]
  have := d.isLt
  omega

/-- The 32-bit operand of a zero-extended word is that word. -/
@[simp] theorem operand32_zeroExtended (x : BitVec 32) : operand32 (0#32 ++ x) = x := by
  apply BitVec.eq_of_toNat_eq
  rw [operand32, BitVec.extractLsb'_toNat, toNat_append_add]
  have := x.isLt
  simp
  omega

/-- OP has four values (R66, R72). -/
theorem op_cases (x : BitVec 2) : x = 0b00#2 ∨ x = 0b01#2 ∨ x = 0b10#2 ∨ x = 0b11#2 := by
  revert x
  decide

end Sys2Proof
end

