-- ==== Sys2Proof/Laws/State.lean ====
section
/-! SUPPORT. One lemma per field and update of `State`. -/

namespace Sys2Proof.Machine

variable (s : State) (q : Request) (r : Response)

@[simp] theorem submit_config : (s.submit q).config = s.config := rfl
@[simp] theorem submit_requests : (s.submit q).requests = s.requests ++ [q] := rfl
@[simp] theorem submit_accepted : (s.submit q).accepted = s.accepted := rfl
@[simp] theorem submit_responses : (s.submit q).responses = s.responses := rfl

@[simp] theorem presentNext_config : (s.presentNext q).config = s.config := rfl
@[simp] theorem presentNext_requests : (s.presentNext q).requests = q :: s.requests := rfl
@[simp] theorem presentNext_accepted : (s.presentNext q).accepted = s.accepted := rfl
@[simp] theorem presentNext_responses : (s.presentNext q).responses = s.responses := rfl

@[simp] theorem deliver_config : (s.deliver r).config = s.config := rfl
@[simp] theorem deliver_requests : (s.deliver r).requests = s.requests := rfl
@[simp] theorem deliver_accepted : (s.deliver r).accepted = s.accepted := rfl
@[simp] theorem deliver_responses : (s.deliver r).responses = s.responses ++ [r] := rfl

@[simp] theorem reset_config : State.reset.config = Config.default := rfl
@[simp] theorem reset_requests : State.reset.requests = [] := rfl
@[simp] theorem reset_accepted : State.reset.accepted = [] := rfl
@[simp] theorem reset_responses : State.reset.responses = [] := rfl

end Sys2Proof.Machine
end

