-- ==== Sys2Proof/Laws/Ops.lean ====
section
/-! SUPPORT. What each shared operation can do, said once: accepting a request, responding, running an
operation and stepping. -/

namespace Sys2Proof.Machine

/-- With no request waiting there is nothing to accept. -/
theorem fetch_nil {s : State} (h : s.requests = []) : s.fetch = none := by
  simp [State.fetch, h]

/-- Accepting takes the oldest request and changes nothing but the two request lists. -/
theorem fetch_cons {s : State} {q : Request} {rest : List Request} (h : s.requests = q :: rest) :
    s.fetch = some (q, { s with requests := rest, accepted := s.accepted ++ [q] }) := by
  simp [State.fetch, h]

/-- Both ways of ending an operation deliver exactly one response. -/
theorem respond_eq (r : Response) (s : State) : respond r s = .next (s.deliver r) := by
  cases r <;> rfl

/-- Every operation answers a next state: the state before with its one response delivered. -/
theorem exec_eq_deliver (i : Instr) (s : State) : exec i s = .next (s.deliver (answer s.config i)) := by
  cases i <;> exact respond_eq _ s

/-- Everything one step can do: idle, or accept the oldest request and deliver its response. -/
theorem step_cases (s : State) :
    (s.requests = [] ∧ step s = .next s) ∨
    (∃ q rest, s.requests = q :: rest ∧
      step s = .next { s with
        requests := rest
        accepted := s.accepted ++ [q]
        responses := s.responses ++ [answer s.config (decode q)] }) := by
  cases h : s.requests with
  | nil => exact .inl ⟨rfl, by simp [step, fetch_nil h]⟩
  | cons q rest =>
    refine .inr ⟨q, rest, rfl, ?_⟩
    simp only [step, fetch_cons h, exec_eq_deliver]
    rfl

end Sys2Proof.Machine
end

