-- ==== Sys2Proof/Laws/PerInstr.lean ====
section
/-! SUPPORT. What holds of each operation as a term: its request word is the one its row of the opcode
table describes. -/

namespace Sys2Proof.Laws.TableRow

/-- The mask of every row of the opcode table: OP alone is fixed (30_encoding.md R66). -/
def rowMask : Request := 0x30000000000000000#66

/-- The match of an operation's row of the opcode table (R66). -/
def rowMatch : Instr → Request
  | .ieeeSingleToHex _ => 0x00000000000000000#66
  | .ieeeDoubleToHex _ => 0x10000000000000000#66
  | .hexToIeeeSingle _ => 0x20000000000000000#66
  | .hexToIeeeDouble _ => 0x30000000000000000#66

/-- The operation is well formed, its word lies in its row of the opcode table, and no other row's match
agrees with it. -/
def Statement (i : Instr) : Prop :=
  i.wellFormed = true ∧ encode i &&& rowMask = rowMatch i ∧
    ∀ j : Instr, encode i &&& rowMask = rowMatch j →
      i.direction = j.direction ∧ i.width = j.width

/-- Under the mask, a request word keeps its OP and loses its DATA. -/
theorem requestWord_and_rowMask (op : BitVec 2) (d : Data) :
    requestWord op d &&& rowMask = op ++ 0#64 := by
  have h : rowMask = BitVec.allOnes 2 ++ 0#64 := rfl
  rw [h, requestWord, BitVec.and_append, BitVec.and_allOnes, BitVec.and_zero]

/-- Two operations in one row have one direction and one width. -/
theorem rowMatch_inj {i j : Instr} (h : rowMatch i = rowMatch j) :
    i.direction = j.direction ∧ i.width = j.width := by
  cases i <;> cases j <;> simp_all [rowMatch, Instr.direction, Instr.width]

/-- An operation whose word lies in its row satisfies the whole statement. -/
theorem statement_of_row {i : Instr} (hw : i.wellFormed = true)
    (h : encode i &&& rowMask = rowMatch i) : Statement i :=
  ⟨hw, h, fun _ hj => rowMatch_inj (h.symm.trans hj)⟩

theorem ieeeSingleToHex (a : BitVec 32) : Statement (.ieeeSingleToHex a) :=
  statement_of_row rfl (requestWord_and_rowMask 0b00#2 _)

theorem ieeeDoubleToHex (a : BitVec 64) : Statement (.ieeeDoubleToHex a) :=
  statement_of_row rfl (requestWord_and_rowMask 0b01#2 _)

theorem hexToIeeeSingle (h : BitVec 32) : Statement (.hexToIeeeSingle h) :=
  statement_of_row rfl (requestWord_and_rowMask 0b10#2 _)

theorem hexToIeeeDouble (h : BitVec 64) : Statement (.hexToIeeeDouble h) :=
  statement_of_row rfl (requestWord_and_rowMask 0b11#2 _)

end Sys2Proof.Laws.TableRow
end

