-- ==== Sys2Proof/Tests/Slice0.lean ====
section
/-! SUPPORT. The model's own tests. Expected words come from the spec's encodings and from the vectors of
95_test_vectors.md, named in each comment; the witnesses at the end meet the hypotheses of the obligations. -/

namespace Sys2Proof.Tests

open Sys2Proof Sys2Proof.Machine

/-- A state of a codec built SIGNED, with these requests waiting. -/
def waiting (qs : List Request) : State := { State.reset with requests := qs }

/-- A state of a codec built UNSIGNED. -/
def unsignedBuild : State := { State.reset with config := { encUnderflowZero := .unsigned } }

/-- A state with one transaction behind it and these requests waiting. -/
def after (q : Request) (r : Response) (qs : List Request) : State :=
  { State.reset with requests := qs, accepted := [q], responses := [r] }

/-- The responses of the next state, where there is one. -/
def responsesOf : Outcome → List Response
  | .next t => t.responses
  | .fault _ => []
  | .refused _ => []

/-! ### Well-formedness -/

/-- R75: seven digits are no 32-bit operand. -/
theorem test_wellFormed_refuses_seven_digits :
    (Source.named .ieeeToHex .w32 .routine [3, 15, 8, 0, 0, 0, 0]).wellFormed = false := by decide

/-- R74, R76: 33 is no width. -/
theorem test_wellFormed_refuses_width_33 :
    (Source.generic .ieeeToHex [3, 15, 8, 0, 0, 0, 0, 0] 33).wellFormed = false := by decide

/-- R76: eight digits are no 64-bit operand. -/
theorem test_wellFormed_refuses_eight_digits_at_64 :
    (Source.generic .hexToIeee [3, 15, 8, 0, 0, 0, 0, 0] 64).wellFormed = false := by decide

theorem test_wellFormed_accepts_eight_digits_at_32 :
    (Source.generic .hexToIeee [3, 15, 8, 0, 0, 0, 0, 0] 32).wellFormed = true := by decide

/-! ### Decoding: OP, then DATA, written out from R60, R62 and R66 -/

/-- ENC32 of 0x3F800000, with all of the ignored `DATA[63:32]` set (R63). -/
theorem test_decode_ENC32 :
    decode (0b00#2 ++ 0b11111111111111111111111111111111#32 ++ 0b0#1 ++ 0b01111111#8 ++
      0b00000000000000000000000#23) = .ieeeSingleToHex 0x3F800000#32 := by decide

/-- ENC64 of 0x3FF0000000000000. -/
theorem test_decode_ENC64 :
    decode (0b01#2 ++ 0b0#1 ++ 0b01111111111#11 ++ 0#52) = .ieeeDoubleToHex 0x3FF0000000000000#64 := by
  decide

/-- DEC32 of 0x41100000. -/
theorem test_decode_DEC32 :
    decode (0b10#2 ++ 0#32 ++ 0b0#1 ++ 0b1000001#7 ++ 0b000100000000000000000000#24) =
      .hexToIeeeSingle 0x41100000#32 := by decide

/-- DEC64 of 0xC276A00000000000. -/
theorem test_decode_DEC64 :
    decode (0b11#2 ++ 0b1#1 ++ 0b1000010#7 ++ 0b01110110101000000000000000000000#32 ++ 0#24) =
      .hexToIeeeDouble 0xC276A00000000000#64 := by decide

/-- The opcode table's match words decode to their rows. -/
theorem test_table_words :
    decodeTableWord 72 0x00000000000000000 = some (.ieeeSingleToHex 0#32) ∧
    decodeTableWord 72 0x10000000000000000 = some (.ieeeDoubleToHex 0#64) ∧
    decodeTableWord 72 0x20000000000000000 = some (.hexToIeeeSingle 0#32) ∧
    decodeTableWord 72 0x30000000000000000 = some (.hexToIeeeDouble 0#64) := by decide

/-- Program P4, request 3: the word `3_DEADBEEF41100000` answers 0xC765B7DDE8220000. -/
theorem test_step_runs_fetch_word :
    responsesOf (step (State.reset.withFetchWord 72 0x3DEADBEEF41100000)) =
      [.ok 0xC765B7DDE8220000#64] := by decide +kernel

/-- Program P4, request 1: `0_DEADBEEF3F800000` answers as with `DATA[63:32]` zero. -/
theorem test_step_ignores_upper_data :
    responsesOf (step (waiting [0x0DEADBEEF3F800000#66])) = [.ok 0x0000000041100000#64] := by decide +kernel

/-! ### The operations -/

/-- ENC32-8: the low bits 101 of the significand are lost. -/
theorem test_ENC32_truncates :
    responsesOf (exec (.ieeeSingleToHex 0x3DCCCCCD#32) State.reset) = [.ok 0x40199999#64] := by
  decide +kernel

/-- ENC32-15: a subnormal renormalized by five nibbles. -/
theorem test_ENC32_subnormal :
    responsesOf (exec (.ieeeSingleToHex 0x00000003#32) State.reset) = [.ok 0x1C100000#64] := by
  decide +kernel

/-- ENC64-9: RangeError. -/
theorem test_ENC64_rangeError :
    responsesOf (exec (.ieeeDoubleToHex 0xCFB0000000000000#64) State.reset) = [.rangeError] := by
  decide +kernel

/-- ENC64-15: underflow under both builds. -/
theorem test_ENC64_underflow :
    responsesOf (exec (.ieeeDoubleToHex 0xAFA0000000000000#64) State.reset) =
      [.ok 0x8000000000000000#64] ∧
    responsesOf (exec (.ieeeDoubleToHex 0xAFA0000000000000#64) unsignedBuild) = [.ok 0#64] := by
  decide +kernel

/-- DEC32-18: the case of 90_conflicts.md C5. -/
theorem test_DEC32_normalizes_first :
    responsesOf (exec (.hexToIeeeSingle 0x21100000#32) State.reset) = [.ok 0x00200000#64] := by
  decide +kernel

/-- DEC32-15: overflow to the canonical infinity. -/
theorem test_DEC32_overflow :
    responsesOf (exec (.hexToIeeeSingle 0x61100000#32) State.reset) = [.ok 0x7F800000#64] := by
  decide +kernel

/-- DEC64-3: the three low bits are truncated. -/
theorem test_DEC64_truncates :
    responsesOf (exec (.hexToIeeeDouble 0x40FFFFFFFFFFFFFF#64) State.reset) =
      [.ok 0x3FEFFFFFFFFFFFFF#64] := by decide +kernel

/-- DEC64-8: a zero mantissa, 770 rounds of the normalization loop. -/
theorem test_DEC64_zero_mantissa :
    responsesOf (exec (.hexToIeeeDouble 0x0100000000000000#64) State.reset) = [.ok 0#64] := by
  decide +kernel

/-! ### The assembler notation -/

/-- R75's example line, with a comment, assembles to `0_000000003F800000`. -/
theorem test_assemble_line :
    assembleLine "ieeeSingleToHex 0x3F800000 ; 1.0".toList = .ok 0x0000000003F800000#66 := by
  decide +kernel

/-- R76: `hexToIeee 0x…, 64` is hexToIeeeDouble. -/
theorem test_assemble_generic :
    assembleLine "hexToIeee 0x7FFFFFFFFFFFFFF8, 64".toList = .ok 0x37FFFFFFFFFFFFFF8#66 := by
  decide +kernel

/-- R75: how a request word and the two kinds of response are written. -/
theorem test_texts :
    requestText 0x0000000003F800000#66 = "0_000000003F800000".toList ∧
    responseText .w32 (.ok 0x41100000#64) = "-> 0x41100000".toList ∧
    responseText .w64 .rangeError = "-> RangeError".toList := by decide +kernel

/-! ### Witnesses: states and operands that meet the hypotheses of the obligations -/

theorem witness_DecodeAndEncodeAgree : (Instr.hexToIeeeDouble 0xFFFFFFFFFFFFFFFF#64).wellFormed = true := by
  decide

/-- For StepRunsTheDecodedRequest and EachRequestGetsItsResponse. -/
theorem witness_StepRunsTheDecodedRequest :
    (waiting [0x3FFFFFFFFFFFFFFFF#66, 0#66]).requests = 0x3FFFFFFFFFFFFFFFF#66 :: [0#66] := rfl

theorem witness_StepWithoutARequestIdles : State.reset.requests = [] := rfl

/-- k at both ends of its range. -/
theorem witness_RunAnswersRequestsInOrder :
    0 ≤ (waiting [1#66, 2#66]).requests.length ∧ 2 ≤ (waiting [1#66, 2#66]).requests.length := by decide

theorem witness_InterleavingGivesEachRequesterItsResponses :
    [7, 8, 7].length = (waiting [1#66, 2#66, 3#66]).requests.length := by decide

/-- A history that ends in a RangeError, and no history. -/
theorem witness_ResponseIgnoresHistory :
    (after 0x17FF0000000000000#66 .rangeError [5#66]).config = (waiting [5#66]).config ∧
    (after 0x17FF0000000000000#66 .rangeError [5#66]).requests = 5#66 :: [] ∧
    (waiting [5#66]).requests = 5#66 :: [] := ⟨rfl, rfl, rfl⟩

/-- For StepKeepsResponsesFaithful: a RangeError behind, a request ahead. -/
theorem witness_StepKeepsResponsesFaithful :
    (after 0x17FF0000000000000#66 .rangeError [0#66]).Faithful ∧
    ∃ t, step (after 0x17FF0000000000000#66 .rangeError [0#66]) = .next t := by
  refine ⟨?_, (step_cases _).elim (fun h => ⟨_, h.2⟩) fun ⟨_, _, _, h⟩ => ⟨_, h⟩⟩
  have h : hfc Config.default 0x17FF0000000000000#66 = .rangeError := by decide +kernel
  exact congrArg (fun r => [r]) h.symm

theorem witness_StepKeepsTransactionsOk :
    (after 0x17FF0000000000000#66 .rangeError [0#66]).TransactionsOk ∧
    ∃ t, step (after 0x17FF0000000000000#66 .rangeError [0#66]) = .next t :=
  ⟨.cons ⟨by decide, fun _ h => by cases h⟩ .nil, witness_StepKeepsResponsesFaithful.2⟩

theorem witness_OperationsOnlyDeliverAResponse :
    ∃ t, exec (.hexToIeeeSingle 0#32) State.reset = .next t := ⟨_, exec_eq_deliver _ _⟩

/-- Both 32-bit OP values, with different `DATA[63:32]`. -/
theorem witness_UpperDataOfSingleRequestsIsIgnored :
    (Request.op 0x0DEADBEEF3F800000#66 = Request.op 0x0000000003F800000#66 ∧
      (Request.op 0x0DEADBEEF3F800000#66).getLsbD 0 = false ∧
      (Request.data 0x0DEADBEEF3F800000#66).extractLsb' 0 32 =
        (Request.data 0x0000000003F800000#66).extractLsb' 0 32) ∧
    (Request.op 0x2FFFFFFFF41100000#66 = Request.op 0x20000000041100000#66 ∧
      (Request.op 0x2FFFFFFFF41100000#66).getLsbD 0 = false ∧
      (Request.data 0x2FFFFFFFF41100000#66).extractLsb' 0 32 =
        (Request.data 0x20000000041100000#66).extractLsb' 0 32) := by decide

/-- For EncodeReturnsZerosUnchanged and DecodeReturnsZerosUnchanged: the negative zeros. -/
theorem witness_ReturnsZerosUnchanged :
    BitVec.extractLsb' 0 31 0x80000000#32 = 0#31 ∧
    BitVec.extractLsb' 0 63 0x8000000000000000#64 = 0#63 := by decide

/-- For SignificandHasItsImplicitBit and AlignedSignificandFillsTheHexField: the largest f, E = 0 and 1. -/
theorem witness_SignificandHasItsImplicitBit :
    8388607 < 2 ^ Width.mw .w32 ∧ 4503599627370495 < 2 ^ Width.mw .w64 ∧ (1 ≠ 0 ∧ 0 = 0) := by decide

/-- The least and the largest mantissa of each width, and operands with E = 0 and E ≠ 0. -/
theorem witness_RenormalizationMeetsItsClosedForm :
    (1 < 2 ^ Width.hw .w32 ∧ 16777215 < 2 ^ Width.hw .w32 ∧ 72057594037927935 < 2 ^ Width.hw .w64) ∧
    ieeeExp .w32 0x00800000#32 ≠ 0 ∧ ieeeExp .w64 0x0010000000000000#64 ≠ 0 ∧
    ieeeExp .w32 0x007FFFFF#32 = 0 ∧ ieeeExp .w64 0x0000000000000001#64 = 0 := by decide

/-- E = 1275, the least exponent field that overflows. -/
theorem witness_EncodeOverflowRaisesRangeError :
    nonSign .w64 0x4FB0000000000000#64 ≠ 0 ∧ (encNormalized .w64 0x4FB0000000000000#64).2 > 127 := by
  decide +kernel

/-- E = 762 under both builds, and E = 763, where X = 0. -/
theorem witness_EncodeUnderflowReturnsZero :
    (nonSign .w64 0xAFA0000000000000#64 ≠ 0 ∧ (encNormalized .w64 0xAFA0000000000000#64).2 < 0) ∧
    State.reset.config.encUnderflowZero = .signed ∧ unsignedBuild.config.encUnderflowZero = .unsigned ∧
    (nonSign .w64 0x2FB0000000000000#64 ≠ 0 ∧ (encNormalized .w64 0x2FB0000000000000#64).2 = 0) := by
  decide +kernel

/-- X at the least and the largest value each width reaches. -/
theorem witness_EncodeAssemblesSignExponentMantissa :
    (nonSign .w32 0x00000002#32 ≠ 0 ∧ (encNormalized .w32 0x00000002#32).2 = 28) ∧
    (nonSign .w32 0x7F800000#32 ≠ 0 ∧ (encNormalized .w32 0x7F800000#32).2 = 97) ∧
    (nonSign .w64 0x2FB0000000000000#64 ≠ 0 ∧ (encNormalized .w64 0x2FB0000000000000#64).2 = 0) ∧
    (nonSign .w64 0x4FAFFFFFFFFFFFFF#64 ≠ 0 ∧ (encNormalized .w64 0x4FAFFFFFFFFFFFFF#64).2 = 127) := by
  decide +kernel

/-- For SingleEncodeOfNormalOperands and the clauses of SingleEncodeNeverFails,
SingleEncodeTruncatesTheLowBits and SingleRoundTripClearsTheLostBits: E = 1, 254, 255 and 0. -/
theorem witness_SingleEncodeOperands :
    ieeeExp .w32 0x00800000#32 = 1 ∧ ieeeExp .w32 0x7F7FFFFF#32 = 254 ∧ ieeeExp .w32 0xFFC00000#32 = 255 ∧
    (ieeeExp .w32 0x00000002#32 = 0 ∧ ieeeFrac .w32 0x00000002#32 = 2) ∧
    (ieeeExp .w32 0x80000003#32 = 0 ∧ ieeeFrac .w32 0x80000003#32 = 3) := by decide

/-- For DoubleEncodeOfInRangeOperands, DoubleEncodeIsExact and DoubleRoundTripIsExact: both ends. -/
theorem witness_DoubleEncodeOfInRangeOperands :
    ieeeExp .w64 0x2FB0000000000000#64 = 763 ∧ ieeeExp .w64 0xCFAFFFFFFFFFFFFF#64 = 1274 := by decide

/-- For DoubleEncodeUnderflowExactlyTo762 and DoubleEncodeBoundariesByMagnitude. -/
theorem witness_DoubleEncodeBoundaries :
    nonSign .w64 0x2FAFFFFFFFFFFFFF#64 ≠ 0 ∧ nonSign .w64 0x4FB0000000000000#64 ≠ 0 := by decide

/-- The two clauses, at both widths. -/
theorem witness_EncodedMantissaIsHexNormalized :
    ieeeExp .w32 0x7FFFFFFF#32 ≠ 0 ∧ ieeeExp .w64 0x0010000000000000#64 ≠ 0 ∧
    (ieeeExp .w32 0x00000002#32 = 0 ∧ encMantissa .w32 0x00000002#32 ≠ 0) ∧
    (ieeeExp .w64 0x0000000000000001#64 = 0 ∧ encMantissa .w64 0x0000000000000001#64 ≠ 0) := by
  decide +kernel

theorem witness_EncodeHasNoInfinityOrNaNPath :
    BitVec.extractLsb' 23 8 0x7FC00000#32 = 0xFF#8 ∧
    BitVec.extractLsb' 52 11 0xFFF0000000000000#64 = 0x7FF#11 := by decide

/-- SIGNED and underflowing, any build and X = 0, UNSIGNED and underflowing. -/
theorem witness_EncodeSignSymmetry :
    (nonSign .w64 0x2FA0000000000000#64 ≠ 0 ∧ Config.default.encUnderflowZero = .signed) ∧
    (nonSign .w64 0x2FB0000000000000#64 ≠ 0 ∧ 0 ≤ (encNormalized .w64 0x2FB0000000000000#64).2) ∧
    (unsignedBuild.config.encUnderflowZero = .unsigned ∧
      (encNormalized .w64 0x2FA0000000000000#64).2 < 0) := by decide +kernel

/-- The zero, the least and the largest mantissa. -/
theorem witness_LeftNormalizationMeetsItsClosedForm :
    0 < 2 ^ Width.hw .w32 ∧ 1 < 2 ^ Width.hw .w64 ∧ 72057594037927935 < 2 ^ Width.hw .w64 := by decide

/-- e at EMIN, far below it, and just above it. -/
theorem witness_DenormalizationMeetsItsClosedForm :
    (-126 : Int) ≤ Width.emin .w32 ∧
    ((-256 : Int) ≤ Width.emin .w32 ∧ 16777215 < 2 ^ Width.hw .w32 ∧
      Width.hw .w32 ≤ denormalizeShift .w32 (-256)) ∧
    Width.emin .w64 < -1021 := by decide

/-- The largest e_n below -149 that a non-zero mantissa meets, and the last clause at its boundary. -/
theorem witness_DecodeUnderflowReturnsSignedZero :
    (nonSign .w32 0x9A800000#32 ≠ 0 ∧ (decNormalized .w32 0x9A800000#32).2 < -149) ∧
    (nonSign .w32 0x00FFFFFF#32 ≠ 0 ∧
      (decNormalized .w32 0x00FFFFFF#32).2 < Width.emin .w32 - Width.mw .w32) ∧
    (72057594037927935 < 2 ^ Width.hw .w64 ∧ (-1075 : Int) < Width.emin .w64 - Width.mw .w64) := by
  decide +kernel

/-- e_n = 129, the least that overflows. -/
theorem witness_DecodeOverflowReturnsInfinity :
    nonSign .w32 0xE1100000#32 ≠ 0 ∧ (decNormalized .w32 0xE1100000#32).2 = 129 ∧
    Width.emax .w32 < (decNormalized .w32 0xE1100000#32).2 := by decide +kernel

/-- e_n = 128 and -125 (normal), -126 and -148 (at EMIN), W = 32. -/
theorem witness_DecodeAssemblesSignExponentFraction :
    (nonSign .w32 0x60FFFFFF#32 ≠ 0 ∧ (decNormalized .w32 0x60FFFFFF#32).2 = 128 ∧
      (decDenormalized .w32 0x60FFFFFF#32).2 = 128) ∧
    (nonSign .w32 0x21400000#32 ≠ 0 ∧ (decNormalized .w32 0x21400000#32).2 = -125 ∧
      (decDenormalized .w32 0x21400000#32).2 = -125) ∧
    (nonSign .w32 0x21200000#32 ≠ 0 ∧ (decNormalized .w32 0x21200000#32).2 = -126 ∧
      (decDenormalized .w32 0x21200000#32).2 = -126) ∧
    (nonSign .w32 0x1B800000#32 ≠ 0 ∧ (decNormalized .w32 0x1B800000#32).2 = -148 ∧
      (decDenormalized .w32 0x1B800000#32).2 = -126) := by decide +kernel

theorem witness_DoubleDecodeOfNonzeroMantissas :
    hexMant .w64 0x0000000000000001#64 ≠ 0 ∧ hexMant .w64 0x7FFFFFFFFFFFFFFF#64 ≠ 0 := by decide

/-- One operand on each side of each boundary of e_n: 129, 128, -125, -126, -148 and -152. -/
theorem witness_SingleDecodeOutcomesByExponent :
    (hexMant .w32 0x61100000#32 ≠ 0 ∧ (decNormalized .w32 0x61100000#32).2 = 129) ∧
    (hexMant .w32 0x610FFFFF#32 ≠ 0 ∧ (decNormalized .w32 0x610FFFFF#32).2 = 128) ∧
    (hexMant .w32 0x21400000#32 ≠ 0 ∧ (decNormalized .w32 0x21400000#32).2 = -125) ∧
    (hexMant .w32 0x21200000#32 ≠ 0 ∧ (decNormalized .w32 0x21200000#32).2 = -126) ∧
    (hexMant .w32 0x1B400000#32 ≠ 0 ∧ (decNormalized .w32 0x1B400000#32).2 = -148) ∧
    (hexMant .w32 0x1A800000#32 ≠ 0 ∧ (decNormalized .w32 0x1A800000#32).2 = -152) := by decide +kernel

theorem witness_DecodeOfZeroMantissaIsSignedZero :
    hexMant .w32 0xA1000000#32 = 0 ∧ hexMant .w64 0x7F00000000000000#64 = 0 := by decide

/-- For DecodeNeverRoundsUp and DecodeLosesLessThanOneUnit: a normal result that loses bits, and a
subnormal one. -/
theorem witness_DecodeTruncation :
    (dec .w64 0x40FFFFFFFFFFFFFF#64 = .ok 0x3FEFFFFFFFFFFFFF#64 ∧
      nonSign .w64 0x40FFFFFFFFFFFFFF#64 ≠ 0 ∧
      (decNormalized .w64 0x40FFFFFFFFFFFFFF#64).2 ≤ Width.emax .w64) ∧
    (dec .w32 0x1B400000#32 = .ok 0x00000000#32 ∧ nonSign .w32 0x1B400000#32 ≠ 0 ∧
      (decNormalized .w32 0x1B400000#32).2 ≤ Width.emax .w32) := by decide +kernel

theorem witness_AliasesAssembleAlike :
    (hexDigits 8 0x3F800000).length = Width.bits .w32 / 4 ∧
    (hexDigits 16 0x3FF0000000000000).length = Width.bits .w64 / 4 := by decide

/-- One source for each clause. -/
theorem witness_IllFormedSourcesAreRefused :
    (Source.generic .ieeeToHex [] 16).wellFormed = false ∧
    (Source.named .ieeeToHex .w64 .short (hexDigits 8 0)).wellFormed = false ∧
    (Source.named .hexToIeee .w64 .short (hexDigits 16 0)).wellFormed = true ∧
    (Source.generic .hexToIeee (hexDigits 8 0) 32).wellFormed = true := by decide

end Sys2Proof.Tests
end

section
/-! PROOFS, the family 00_scope: a step that answers a request (10_state.md R29, 70_reset_and_hazards.md
R240). -/

namespace Sys2Proof.Machine

/-- The operand of a 32-bit request, as `hfc` reads it from the whole request word (R63). -/
theorem operand32_data (q : Request) : operand32 (Request.data q) = BitVec.extractLsb' 0 32 q := by
  apply BitVec.eq_of_toNat_eq
  simp only [operand32, Request.data, BitVec.extractLsb'_toNat, Nat.shiftRight_zero]
  omega

/-- Decoding a request and running its operation answers what HFC answers (R29). -/
theorem answer_decode (c : Config) (q : Request) : answer c (decode q) = hfc c q := by
  rcases op_cases (Request.op q) with h | h | h | h <;>
    simp [answer, decode, hfc, h, operand32_data, operand64]

/-- A step with a request waiting accepts it and delivers HFC of it (R29). -/
theorem step_of_requests_cons {s : State} {q : Request} {rest : List Request}
    (h : s.requests = q :: rest) :
    step s = .next { config := s.config, requests := rest, accepted := s.accepted ++ [q],
                     responses := s.responses ++ [hfc s.config q] } := by
  rw [step, fetch_cons h]
  simp only [exec_eq_deliver, answer_decode]
  rfl

/-- Settles O9: the fields of the reset state are its definition, and the first step is the step of any
state with a request waiting. -/
theorem resetHoldsNoTransaction : Obligations.ResetHoldsNoTransaction :=
  ⟨rfl, rfl, rfl, rfl, fun q => step_of_requests_cons (presentNext_requests State.reset q)⟩

end Sys2Proof.Machine
end

section
/-! PROOFS. The steps of encode in arithmetic terms (40_encode.md R103-R107). -/

namespace Sys2Proof.Machine

/-- R103 and R106 go together: the shift makes up what rounding e up to a multiple of 4 adds. -/
theorem four_mul_rebase (e : Int) : 4 * (rebase e - 64) = e + remainderShift e := by
  rw [rebase, hexExpMagnitude, remainderShift, hexBias]
  split_ifs <;> omega

theorem remainderShift_le (e : Int) : remainderShift e ≤ 3 := by
  rw [remainderShift]
  split_ifs <;> omega

theorem significand_of_ne_zero (w : Width) {E f : Nat} (hE : E ≠ 0) (hf : f < 2 ^ w.mw) :
    significand w E f = 2 ^ w.mw + f := by
  rw [significand, if_pos hE, ← Nat.shiftLeft_add_eq_or_of_lt hf, Nat.one_shiftLeft]

theorem significand_zero (w : Width) (f : Nat) : significand w 0 f = 2 * f := by
  simp [significand, Nat.shiftLeft_eq, Nat.mul_comm]

theorem significand_lt (w : Width) (E : Nat) {f : Nat} (hf : f < 2 ^ w.mw) :
    significand w E f < 2 ^ (w.mw + 1) := by
  rcases eq_or_ne E 0 with rfl | hE
  · rw [significand_zero]
    omega
  · rw [significand_of_ne_zero w hE hf]
    omega

/-- A hex mantissa is a significand and the alignment bits behind it (00_scope.md R6, row `ALIGN`). -/
theorem hw_eq (w : Width) : w.hw = w.mw + 1 + w.align := by cases w <;> rfl

theorem alignToHex_eq_mul (w : Width) (m : Nat) : alignToHex w m = m * 2 ^ w.align :=
  Nat.shiftLeft_eq _ _

theorem alignToHex_lt (w : Width) {m : Nat} (hm : m < 2 ^ (w.mw + 1)) :
    alignToHex w m < 2 ^ w.hw := by
  rw [alignToHex_eq_mul, hw_eq, pow_add]
  exact Nat.mul_lt_mul_of_pos_right hm (by positivity)

theorem encMantissa_eq_div (w : Width) (a : Word w) :
    encMantissa w a = alignToHex w (significand w (ieeeExp w a) (ieeeFrac w a)) /
      2 ^ remainderShift (encExponent w a) :=
  Nat.shiftRight_eq_div_pow _ _

theorem encMantissa_lt (w : Width) (a : Word w) : encMantissa w a < 2 ^ w.hw := by
  rw [encMantissa_eq_div]
  exact (Nat.div_le_self _ _).trans_lt (alignToHex_lt w (significand_lt w _ (ieeeFrac_lt w a)))

/-- For W = 32 there is no alignment (R105): M is the significand after the remainder shift. -/
theorem encMantissa_w32 (a : BitVec 32) : encMantissa .w32 a =
    significand .w32 (ieeeExp .w32 a) (ieeeFrac .w32 a) / 2 ^ remainderShift (encExponent .w32 a) := by
  rw [encMantissa_eq_div, alignToHex_eq_mul, align_w32, pow_zero, mul_one]

/-- For W = 64 the three alignment bits are zeros, and the remainder shift discards no other bit (R116). -/
theorem encMantissa_mul_two_pow_w64 (a : BitVec 64) :
    encMantissa .w64 a * 2 ^ remainderShift (encExponent .w64 a) =
      8 * significand .w64 (ieeeExp .w64 a) (ieeeFrac .w64 a) := by
  rw [encMantissa_eq_div, alignToHex_eq_mul, Nat.div_mul_cancel, Nat.mul_comm]
  · rfl
  · exact ((Nat.pow_dvd_pow_iff_le_right (by norm_num)).2 (remainderShift_le _)).mul_left _

/-- Where the loop of R107 stops, its closed form takes no round. -/
theorem renormalizeRounds_of_stop {w : Width} {M : Nat} (hM : M < 2 ^ w.hw)
    (h : ¬(M ≠ 0 ∧ topNibble w M = 0)) : renormalizeRounds w M = 0 := by
  rw [renormalizeRounds]
  split_ifs with h0
  · rfl
  · have : ¬4 ≤ lzc w.hw M := fun h4 =>
      h ⟨h0, (topNibble_eq_zero_iff w M hM).2 ((lt_two_pow_iff_le_lzc _ _ _ h0 hM).2 h4)⟩
    omega

/-- Where the loop of R107 goes on, its closed form has one round more than after the shift. -/
theorem renormalizeRounds_shiftLeft {w : Width} {M : Nat} (hM : M < 2 ^ w.hw) (h0 : M ≠ 0)
    (h : topNibble w M = 0) : renormalizeRounds w M = renormalizeRounds w (M <<< 4) + 1 := by
  have h4 : 4 ≤ lzc w.hw M :=
    (lt_two_pow_iff_le_lzc _ _ _ h0 hM).1 ((topNibble_eq_zero_iff w M hM).1 h)
  rw [Nat.shiftLeft_eq, renormalizeRounds, renormalizeRounds, if_neg h0, if_neg (by positivity),
    lzc_mul_two_pow _ _ _ h0]
  omega

theorem shiftLeft_four_lt {w : Width} {M : Nat} (hM : M < 2 ^ w.hw) (h : topNibble w M = 0) :
    M <<< 4 < 2 ^ w.hw := by
  have h' := (topNibble_eq_zero_iff w M hM).1 h
  rw [Nat.shiftLeft_eq]
  cases w <;> simp at h' ⊢ <;> omega

theorem renormalizeLoop_eq_closed (w : Width) (n M : Nat) (X : Int) (hM : M < 2 ^ w.hw)
    (hn : renormalizeRounds w M ≤ n) : renormalizeLoop w n M X = renormalizeClosed w M X := by
  induction n generalizing M X with
  | zero => simp [renormalizeLoop, renormalizeClosed, Nat.le_zero.1 hn]
  | succ n ih =>
    rw [renormalizeLoop]
    split_ifs with h
    · obtain ⟨h0, hnib⟩ := h
      have hk := renormalizeRounds_shiftLeft hM h0 hnib
      rw [ih _ _ (shiftLeft_four_lt hM hnib) (by omega), renormalizeClosed, renormalizeClosed, hk,
        ← Nat.shiftLeft_add, Prod.mk.injEq]
      exact ⟨by congr 1; omega, by push_cast; omega⟩
    · simp [renormalizeClosed, renormalizeRounds_of_stop hM h]

/-- At most 5 rounds for W = 32 and 13 for W = 64 (R107). -/
theorem four_mul_renormalizeRounds_lt (w : Width) {M : Nat} (hM : M < 2 ^ w.hw) :
    4 * renormalizeRounds w M < w.hw := by
  rw [renormalizeRounds]
  split_ifs with h0
  · cases w <;> decide
  · have := (lzc_bounds _ _ h0 hM).2.2
    omega

theorem renormalize_eq_closed (w : Width) (M : Nat) (X : Int) (hM : M < 2 ^ w.hw) :
    renormalize w M X = renormalizeClosed w M X :=
  renormalizeLoop_eq_closed w _ M X hM (by have := four_mul_renormalizeRounds_lt w hM; omega)

/-- Renormalization shifts no bit out of the hex mantissa field. -/
theorem renormalizeClosed_fst_lt (w : Width) (M : Nat) (X : Int) (hM : M < 2 ^ w.hw) :
    (renormalizeClosed w M X).1 < 2 ^ w.hw := by
  simp only [renormalizeClosed, renormalizeRounds, Nat.shiftLeft_eq]
  split_ifs with h0
  · simpa using hM
  · calc M * 2 ^ (4 * (lzc w.hw M / 4)) ≤ M * 2 ^ lzc w.hw M :=
        Nat.mul_le_mul_left _ (Nat.pow_le_pow_right (by omega) (by omega))
      _ < 2 ^ w.hw := (lzc_bounds _ _ h0 hM).2.1

theorem encNormalized_of_ne_zero {w : Width} {a : Word w} (hE : ieeeExp w a ≠ 0) :
    encNormalized w a = (encMantissa w a, rebase (encExponent w a)) :=
  if_neg hE

theorem encNormalized_of_zero {w : Width} {a : Word w} (hE : ieeeExp w a = 0) :
    encNormalized w a = renormalizeClosed w (encMantissa w a) (rebase (encExponent w a)) :=
  (if_pos hE).trans (renormalize_eq_closed w _ _ (encMantissa_lt w a))

theorem encNormalized_fst_lt (w : Width) (a : Word w) : (encNormalized w a).1 < 2 ^ w.hw := by
  by_cases hE : ieeeExp w a = 0
  · rw [encNormalized_of_zero hE]
    exact renormalizeClosed_fst_lt w _ _ (encMantissa_lt w a)
  · rw [encNormalized_of_ne_zero hE]
    exact encMantissa_lt w a

/-- The boundaries of X for W = 64 in terms of E (R115). With E = 0, X starts at -191 and only falls. -/
theorem encNormalized_snd_w64 (a : BitVec 64) :
    (127 < (encNormalized .w64 a).2 ↔ 1275 ≤ ieeeExp .w64 a) ∧
    ((encNormalized .w64 a).2 < 0 ↔ ieeeExp .w64 a ≤ 762) := by
  have h4 := four_mul_rebase (encExponent .w64 a)
  have hs := remainderShift_le (encExponent .w64 a)
  rw [encExponent, bias_w64] at h4 hs
  by_cases hE : ieeeExp .w64 a = 0
  · rw [encNormalized_of_zero hE, renormalizeClosed, encExponent, bias_w64]
    omega
  · rw [encNormalized_of_ne_zero hE, encExponent, bias_w64]
    omega

/-- The range of X for W = 32 (R115). With E = 0, X starts at 33 and takes at most five rounds. -/
theorem encNormalized_snd_w32 (a : BitVec 32) :
    28 ≤ (encNormalized .w32 a).2 ∧ (encNormalized .w32 a).2 ≤ 97 := by
  by_cases hE : ieeeExp .w32 a = 0
  · have hk := four_mul_renormalizeRounds_lt .w32 (encMantissa_lt .w32 a)
    have hX : rebase (encExponent .w32 a) = 33 := by rw [encExponent, hE]; rfl
    rw [hw_w32] at hk
    rw [encNormalized_of_zero hE, renormalizeClosed, hX]
    omega
  · have h4 := four_mul_rebase (encExponent .w32 a)
    have hs := remainderShift_le (encExponent .w32 a)
    have hlt := ieeeExp_lt .w32 a
    rw [ew_w32] at hlt
    rw [encExponent, bias_w32] at h4 hs
    rw [encNormalized_of_ne_zero hE, encExponent, bias_w32]
    omega

/-- The zero bypass of encode (R101). -/
theorem enc_of_nonSign_eq_zero (c : Config) {w : Width} {a : Word w} (hn : nonSign w a = 0) :
    enc c w a = .ok a :=
  if_pos hn

theorem enc_eq_rangeError_iff (c : Config) (w : Width) (a : Word w) (hn : nonSign w a ≠ 0) :
    enc c w a = .rangeError ↔ 127 < (encNormalized w a).2 := by
  rcases enc_cases c w a with ⟨h0, -⟩ | ⟨-, hX, hr⟩ | ⟨-, hX, hr⟩ | ⟨-, -, hX, hr⟩
  · exact absurd h0 hn
  · simp [hr, hX]
  · simp only [hr, reduceCtorEq, false_iff]
    omega
  · simp only [hr, reduceCtorEq, false_iff]
    omega

/-- An exponent within its field is assembled (R108-R110). -/
theorem enc_eq_assembleHex (c : Config) {w : Width} {a : Word w} (hn : nonSign w a ≠ 0)
    (h0 : 0 ≤ (encNormalized w a).2) (h127 : (encNormalized w a).2 ≤ 127) :
    enc c w a =
      .ok (assembleHex w (signBit w a) (encNormalized w a).2 (encNormalized w a).1) := by
  rcases enc_cases c w a with ⟨hz, -⟩ | ⟨-, hX, -⟩ | ⟨-, hX, -⟩ | ⟨-, -, -, hr⟩
  · exact absurd hz hn
  · omega
  · omega
  · exact hr

end Sys2Proof.Machine
end

section
/-! PROOFS. The numbers that words denote (00_scope.md R15), in the terms the algorithms work in. -/

namespace Sys2Proof

open Machine

/-- R15 with the significand of R104: one form for normal and subnormal words. -/
theorem ieeeMagnitude_eq_significand (w : Width) (a : Word w) :
    ieeeMagnitude w a = (significand w (ieeeExp w a) (ieeeFrac w a) : ℚ) *
      2 ^ (encExponent w a - w.mw - 1) := by
  rw [ieeeMagnitude, encExponent]
  split_ifs with hE
  · rw [significand_of_ne_zero w hE (ieeeFrac_lt w a)]
    push_cast
    rfl
  · rw [not_not.1 hE, significand_zero, show -w.bias - (w.mw : Int) =
      ((0 : Nat) : Int) - w.bias - w.mw - 1 + 1 by push_cast; ring, zpow_add_one₀ two_ne_zero]
    push_cast
    ring

theorem ieeeMagnitude_lt (w : Width) (a : Word w) : ieeeMagnitude w a < 2 ^ encExponent w a := by
  have hm : (significand w (ieeeExp w a) (ieeeFrac w a) : ℚ) < 2 ^ (w.mw + 1) := by
    exact_mod_cast significand_lt w _ (ieeeFrac_lt w a)
  calc ieeeMagnitude w a < 2 ^ (w.mw + 1) * 2 ^ (encExponent w a - w.mw - 1) := by
        rw [ieeeMagnitude_eq_significand]
        exact mul_lt_mul_of_pos_right hm (by positivity)
    _ = 2 ^ encExponent w a := by
        rw [← zpow_natCast, ← zpow_add₀ two_ne_zero]
        congr 1
        push_cast
        ring

theorem two_pow_le_ieeeMagnitude (w : Width) (a : Word w) (hE : ieeeExp w a ≠ 0) :
    2 ^ (encExponent w a - 1) ≤ ieeeMagnitude w a := by
  have hm : (2 : ℚ) ^ w.mw ≤ significand w (ieeeExp w a) (ieeeFrac w a) := by
    rw [significand_of_ne_zero w hE (ieeeFrac_lt w a)]
    exact_mod_cast Nat.le_add_right _ _
  calc (2 : ℚ) ^ (encExponent w a - 1)
      = 2 ^ w.mw * 2 ^ (encExponent w a - w.mw - 1) := by
        rw [← zpow_natCast, ← zpow_add₀ two_ne_zero]
        congr 1
        ring
    _ ≤ ieeeMagnitude w a := by
        rw [ieeeMagnitude_eq_significand]
        exact mul_le_mul_of_nonneg_right hm (by positivity)

/-- From the least normal magnitude up, comparing a magnitude with a power of two is comparing exponents. -/
theorem two_pow_le_ieeeMagnitude_iff (w : Width) (a : Word w) {k : Int} (hk : -w.bias ≤ k) :
    2 ^ k ≤ ieeeMagnitude w a ↔ k < encExponent w a := by
  constructor
  · intro h
    exact (zpow_lt_zpow_iff_right₀ one_lt_two).1 (h.trans_lt (ieeeMagnitude_lt w a))
  · intro h
    have hE : ieeeExp w a ≠ 0 := by
      rw [encExponent] at h
      omega
    exact (zpow_le_zpow_right₀ one_le_two (by omega)).trans (two_pow_le_ieeeMagnitude w a hE)

theorem ieeeMagnitude_assembleIeee_normal (w : Width) (s : Bool) {E m : Nat} (h0 : E ≠ 0)
    (hE : E < 2 ^ w.ew) (hlo : 2 ^ w.mw ≤ m) (hhi : m < 2 ^ (w.mw + 1)) :
    ieeeMagnitude w (assembleIeee w s E m) = (m : ℚ) * 2 ^ ((E : Int) - w.bias - w.mw - 1) := by
  have hf : 2 ^ w.mw + m % 2 ^ w.mw = m := by
    rw [Nat.mod_eq_sub_mod hlo, Nat.mod_eq_of_lt (by omega)]
    omega
  rw [ieeeMagnitude_eq_significand, encExponent, ieeeExp_assembleIeee w s E m hE,
    ieeeFrac_assembleIeee w s E m hE, significand_of_ne_zero w h0 (Nat.mod_lt _ (by positivity)), hf]

theorem ieeeMagnitude_assembleIeee_subnormal (w : Width) (s : Bool) {m : Nat}
    (hm : m < 2 ^ w.mw) :
    ieeeMagnitude w (assembleIeee w s 0 m) = (m : ℚ) * 2 ^ (w.emin - w.mw) := by
  have hE : ieeeExp w (assembleIeee w s 0 m) = 0 :=
    ieeeExp_assembleIeee w s 0 m (by positivity)
  have hf : ieeeFrac w (assembleIeee w s 0 m) = m :=
    (ieeeFrac_assembleIeee w s 0 m (by positivity)).trans (Nat.mod_eq_of_lt hm)
  rw [ieeeMagnitude, hE, hf, if_neg (not_not.2 rfl), Width.emin]

/-- R15 with the radix-16 exponent written in base 2, as both algorithms use it (R103, R143). -/
theorem hexMagnitude_eq (w : Width) (h : Word w) :
    hexMagnitude w h = (hexMant w h : ℚ) * 2 ^ (4 * ((hexExp w h : Int) - 64) - w.hw) := by
  have h16 (k : Int) : (16 : ℚ) ^ k = 2 ^ (4 * k) := by
    rw [zpow_mul]
    norm_num
  rw [hexMagnitude, h16, mul_assoc, ← zpow_add₀ two_ne_zero, hexBias]
  congr 2
  ring

theorem hexMagnitude_assembleHex (w : Width) (s : Bool) {X : Int} {M : Nat} (h0 : 0 ≤ X)
    (h127 : X ≤ 127) (hM : M < 2 ^ w.hw) :
    hexMagnitude w (assembleHex w s X M) = (M : ℚ) * 2 ^ (4 * (X - 64) - w.hw) := by
  lift X to Nat using h0
  rw [hexMagnitude_eq, hexExp_assembleHex w s X M (by omega),
    hexMant_assembleHex w s X M (by omega), Nat.mod_eq_of_lt hM]

end Sys2Proof
end

section
/-! PROOFS, the family 00_scope: what encode keeps of the value of its operand (40_encode.md R115, R116). -/

namespace Sys2Proof.Machine

/-- Renormalization keeps the number that M and X denote. -/
theorem renormalizeClosed_magnitude (w : Width) (M : Nat) (X : Int) :
    ((renormalizeClosed w M X).1 : ℚ) * 2 ^ (4 * ((renormalizeClosed w M X).2 - 64) - w.hw) =
      (M : ℚ) * 2 ^ (4 * (X - 64) - w.hw) := by
  simp only [renormalizeClosed, Nat.shiftLeft_eq]
  push_cast
  rw [mul_assoc, ← zpow_natCast, ← zpow_add₀ two_ne_zero]
  congr 2
  push_cast
  ring

theorem encNormalized_magnitude (w : Width) (a : Word w) :
    ((encNormalized w a).1 : ℚ) * 2 ^ (4 * ((encNormalized w a).2 - 64) - w.hw) =
      (encMantissa w a : ℚ) *
        2 ^ (encExponent w a + remainderShift (encExponent w a) - w.hw) := by
  rw [← four_mul_rebase]
  by_cases hE : ieeeExp w a = 0
  · rw [encNormalized_of_zero hE, renormalizeClosed_magnitude]
  · rw [encNormalized_of_ne_zero hE]

/-- What an assembled result of encode denotes: the aligned significand with the bits that the remainder
shift discards cleared, at the operand's own exponent. -/
theorem enc_of_exponent_in_range (c : Config) (w : Width) (a : Word w) (hn : nonSign w a ≠ 0)
    (h0 : 0 ≤ (encNormalized w a).2) (h127 : (encNormalized w a).2 ≤ 127) :
    ∃ h, enc c w a = .ok h ∧ signBit w h = signBit w a ∧ hexMant w h = (encNormalized w a).1 ∧
      hexMagnitude w h =
        ((encMantissa w a * 2 ^ remainderShift (encExponent w a) : Nat) : ℚ) *
          2 ^ (encExponent w a - w.hw) := by
  have hM := encNormalized_fst_lt w a
  refine ⟨_, enc_eq_assembleHex c hn h0 h127, signBit_assembleHex .., ?_, ?_⟩
  · lift (encNormalized w a).2 to Nat using h0 with X
    rw [hexMant_assembleHex w _ X _ (by omega), Nat.mod_eq_of_lt hM]
  · rw [hexMagnitude_assembleHex w _ h0 h127 hM, encNormalized_magnitude, add_sub_right_comm,
      zpow_add₀ two_ne_zero, zpow_natCast]
    push_cast
    ring

/-- Settles O34: both boundaries of X are boundaries of E, and at a power of two the magnitude is ordered
as the exponent is. -/
theorem doubleEncodeBoundariesByMagnitude : Obligations.DoubleEncodeBoundariesByMagnitude := by
  intro c a hn
  obtain ⟨hgt, hneg⟩ := encNormalized_snd_w64 a
  have hmag (k : Int) (hk : -1022 ≤ k) := two_pow_le_ieeeMagnitude_iff .w64 a hk
  constructor
  · rw [enc_eq_rangeError_iff c .w64 a hn, hgt, hmag 252 (by norm_num), encExponent, bias_w64]
    omega
  · rw [hneg, ← not_le, hmag (-260) (by norm_num), encExponent, bias_w64]
    omega

/-- Settles O37: the remainder shift of at most 3 discards zero alignment bits only. -/
theorem doubleEncodeIsExact : Obligations.DoubleEncodeIsExact := by
  intro c a hlo hhi
  obtain ⟨hgt, hneg⟩ := encNormalized_snd_w64 a
  have hn : nonSign .w64 a ≠ 0 := by rw [nonSign_eq_ieee, mw_w64]; omega
  obtain ⟨h, hok, hsign, -, hmag⟩ := enc_of_exponent_in_range c .w64 a hn (by omega) (by omega)
  have hexp : encExponent .w64 a - (Width.mw .w64 : Int) - 1 =
      encExponent .w64 a - (Width.hw .w64 : Int) + 3 := by
    rw [mw_w64, hw_w64]
    ring
  refine ⟨h, hok, ?_⟩
  rw [hexValue, ieeeValue, hsign, hmag, encMantissa_mul_two_pow_w64,
    ieeeMagnitude_eq_significand, hexp, zpow_add₀ two_ne_zero]
  push_cast
  ring

/-- With E ≠ 0 at least 21 significant bits stay (R116). -/
theorem two_pow_twenty_le_encMantissa_w32 {a : BitVec 32} (hE : ieeeExp .w32 a ≠ 0) :
    2 ^ 20 ≤ encMantissa .w32 a := by
  rw [encMantissa_w32, significand_of_ne_zero .w32 hE (ieeeFrac_lt .w32 a),
    Nat.le_div_iff_mul_le (by positivity)]
  calc 2 ^ 20 * 2 ^ remainderShift (encExponent .w32 a) ≤ 2 ^ 20 * 2 ^ 3 :=
        Nat.mul_le_mul_left _ (Nat.pow_le_pow_right (by norm_num) (remainderShift_le _))
    _ ≤ 2 ^ 23 + ieeeFrac .w32 a := Nat.le_add_right _ _

/-- Settles O38: a zero is bypassed; every other operand is assembled, and `enc_of_exponent_in_range` says
what of its significand stays. -/
theorem singleEncodeTruncatesTheLowBits : Obligations.SingleEncodeTruncatesTheLowBits := by
  intro c a
  by_cases hn : nonSign .w32 a = 0
  · have hfields := nonSign_eq_ieee .w32 a
    have hhex := nonSign_eq_hex .w32 a
    rw [hn, mw_w32] at hfields
    refine ⟨a, enc_of_nonSign_eq_zero c hn, rfl, fun hE => absurd hfields (by omega), fun _ => ?_⟩
    rw [hexMagnitude_eq, show hexMant .w32 a = 0 by omega, show ieeeFrac .w32 a = 0 by omega]
    simp
  · obtain ⟨hlo, hhi⟩ := encNormalized_snd_w32 a
    obtain ⟨h, hok, hsign, hmant, hmag⟩ :=
      enc_of_exponent_in_range c .w32 a hn (by omega) (by omega)
    refine ⟨h, hok, hsign, fun hE => ⟨?_, ?_⟩, fun hE => ?_⟩
    · rw [hmant, encNormalized_of_ne_zero hE]
      exact two_pow_twenty_le_encMantissa_w32 hE
    · rw [hmag, encMantissa_w32, significand_of_ne_zero .w32 hE (ieeeFrac_lt .w32 a), encExponent,
        bias_w32, hw_w32, mw_w32, sub_sub _ 23 1]
      rfl
    · have he : encExponent .w32 a = -126 := by rw [encExponent, hE]; rfl
      have hsh : remainderShift (encExponent .w32 a) = 2 := by rw [he]; rfl
      have hM : encMantissa .w32 a = ieeeFrac .w32 a / 2 := by
        rw [encMantissa_w32, hE, significand_zero, hsh]
        omega
      rw [hmag, hM, hsh, he, show (-149 : Int) = -126 - (Width.hw .w32 : Int) + 1 by rfl,
        zpow_add_one₀ two_ne_zero]
      push_cast
      ring

end Sys2Proof.Machine
end

section
/-! PROOFS. The two loops of decode in closed form (41_decode.md R144, R145). -/

namespace Sys2Proof.Machine

/-- Where the loop of R144 stops, its closed form takes no round. -/
theorem leftNormalizeRounds_of_stop {w : Width} {M : Nat} {e : Int} (hM : M < 2 ^ w.hw)
    (h : ¬(topBit w M = false ∧ e > w.emin)) : leftNormalizeRounds w M e = 0 := by
  by_cases he : e > w.emin
  · have htop : ¬M < 2 ^ (w.hw - 1) := fun hlt => h ⟨(topBit_eq_false_iff w M hM).2 hlt, he⟩
    have h0 : M ≠ 0 := fun h0 => htop (by rw [h0]; positivity)
    have hl : ¬1 ≤ lzc w.hw M := fun hl => htop ((lt_two_pow_iff_le_lzc _ _ _ h0 hM).2 hl)
    rw [leftNormalizeRounds, if_neg h0, if_pos he]
    omega
  · rw [leftNormalizeRounds, if_neg he]
    split_ifs <;> omega

/-- Where the loop of R144 goes on, its closed form has one round more than after the shift. -/
theorem leftNormalizeRounds_shiftLeft {w : Width} {M : Nat} {e : Int} (hM : M < 2 ^ w.hw)
    (htop : topBit w M = false) (he : e > w.emin) :
    leftNormalizeRounds w M e = leftNormalizeRounds w (M <<< 1) (e - 1) + 1 := by
  rw [leftNormalizeRounds, leftNormalizeRounds, if_pos he, Nat.shiftLeft_eq]
  by_cases h0 : M = 0
  · rw [if_pos h0, if_pos (by simp [h0])]
    omega
  · have hl : 1 ≤ lzc w.hw M :=
      (lt_two_pow_iff_le_lzc _ _ _ h0 hM).1 ((topBit_eq_false_iff w M hM).1 htop)
    rw [if_neg h0, if_neg (by positivity), lzc_mul_two_pow _ _ _ h0]
    split_ifs <;> omega

theorem shiftLeft_one_lt {w : Width} {M : Nat} (hM : M < 2 ^ w.hw) (h : topBit w M = false) :
    M <<< 1 < 2 ^ w.hw := by
  have h' := (topBit_eq_false_iff w M hM).1 h
  rw [Nat.shiftLeft_eq]
  cases w <;> simp at h' ⊢ <;> omega

theorem leftNormalizeLoop_eq_closed (w : Width) (n M : Nat) (e : Int) (hM : M < 2 ^ w.hw)
    (hn : leftNormalizeRounds w M e ≤ n) :
    leftNormalizeLoop w n M e = leftNormalizeClosed w M e := by
  induction n generalizing M e with
  | zero => simp [leftNormalizeLoop, leftNormalizeClosed, Nat.le_zero.1 hn]
  | succ n ih =>
    rw [leftNormalizeLoop]
    split_ifs with h
    · obtain ⟨htop, he⟩ := h
      have hL := leftNormalizeRounds_shiftLeft hM htop he
      rw [ih _ _ (shiftLeft_one_lt hM htop) (by omega), leftNormalizeClosed, leftNormalizeClosed,
        hL, ← Nat.shiftLeft_add, Nat.add_comm 1, Prod.mk.injEq]
      exact ⟨rfl, by omega⟩
    · simp [leftNormalizeClosed, leftNormalizeRounds_of_stop hM h]

theorem leftNormalizeRounds_le (w : Width) (M : Nat) (e : Int) :
    leftNormalizeRounds w M e ≤ (e - w.emin).toNat := by
  rw [leftNormalizeRounds]
  split_ifs <;> omega

theorem leftNormalizeRounds_le_lzc (w : Width) {M : Nat} (e : Int) (h0 : M ≠ 0) :
    leftNormalizeRounds w M e ≤ lzc w.hw M := by
  rw [leftNormalizeRounds, if_neg h0]
  split_ifs <;> omega

theorem leftNormalize_eq_closed (w : Width) (M : Nat) (e : Int) (hM : M < 2 ^ w.hw) :
    leftNormalize w M e = leftNormalizeClosed w M e :=
  leftNormalizeLoop_eq_closed w _ M e hM (leftNormalizeRounds_le w M e)

/-- Left normalization shifts no bit out of the hex mantissa field. -/
theorem leftNormalizeClosed_fst_lt (w : Width) (M : Nat) (e : Int) (hM : M < 2 ^ w.hw) :
    (leftNormalizeClosed w M e).1 < 2 ^ w.hw := by
  rw [leftNormalizeClosed, Nat.shiftLeft_eq]
  rcases eq_or_ne M 0 with rfl | h0
  · simp
  · calc M * 2 ^ leftNormalizeRounds w M e ≤ M * 2 ^ lzc w.hw M :=
        Nat.mul_le_mul_left _ (Nat.pow_le_pow_right two_pos (leftNormalizeRounds_le_lzc w e h0))
      _ < 2 ^ w.hw := (lzc_bounds _ _ h0 hM).2.1

/-- Left normalization that ends above EMIN has set the top bit. -/
theorem two_pow_le_leftNormalizeClosed_fst (w : Width) (M : Nat) (e : Int) (hM : M < 2 ^ w.hw)
    (he : w.emin < (leftNormalizeClosed w M e).2) :
    2 ^ (w.hw - 1) ≤ (leftNormalizeClosed w M e).1 := by
  simp only [leftNormalizeClosed, Nat.shiftLeft_eq] at he ⊢
  have h0 : M ≠ 0 := by
    rintro rfl
    rw [leftNormalizeRounds, if_pos rfl] at he
    omega
  have hL : leftNormalizeRounds w M e = lzc w.hw M := by
    rw [leftNormalizeRounds, if_neg h0] at he ⊢
    split_ifs at he ⊢ <;> omega
  rw [hL]
  exact (lzc_bounds _ _ h0 hM).1

theorem denormalizeLoop_eq (w : Width) (n M : Nat) (e : Int) (hn : w.emin - e = n) :
    denormalizeLoop w n M e = (M >>> n, w.emin) := by
  induction n generalizing M e with
  | zero =>
    rw [denormalizeLoop, Nat.shiftRight_zero, show e = w.emin by omega]
  | succ n ih =>
    rw [denormalizeLoop, if_pos (by omega), ih _ _ (by omega), ← Nat.shiftRight_add, Nat.add_comm]

theorem denormalize_of_le {w : Width} (M : Nat) {e : Int} (he : e ≤ w.emin) :
    denormalize w M e = denormalizeClosed w M e := by
  rw [denormalize, if_pos he, denormalizeLoop_eq w _ _ _ (by omega), ← Nat.shiftRight_add]
  rfl

theorem denormalize_of_gt {w : Width} (M : Nat) {e : Int} (he : w.emin < e) :
    denormalize w M e = (M, e) :=
  if_neg (not_le.2 he)

end Sys2Proof.Machine
end

section
/-! PROOFS, the family 00_scope: what decode keeps of the value of its operand (41_decode.md R144-R149,
R156). -/

namespace Sys2Proof.Machine

theorem decNormalized_eq_closed (w : Width) (h : Word w) :
    decNormalized w h = leftNormalizeClosed w (hexMant w h) (decExponent w h) :=
  leftNormalize_eq_closed w _ _ (hexMant_lt w h)

theorem decNormalized_fst_lt (w : Width) (h : Word w) : (decNormalized w h).1 < 2 ^ w.hw := by
  rw [decNormalized_eq_closed]
  exact leftNormalizeClosed_fst_lt w _ _ (hexMant_lt w h)

/-- Left normalization keeps the number that the operand denotes. -/
theorem hexMagnitude_eq_decNormalized (w : Width) (h : Word w) :
    hexMagnitude w h = ((decNormalized w h).1 : ℚ) * 2 ^ ((decNormalized w h).2 - w.hw) := by
  rw [hexMagnitude_eq, decNormalized_eq_closed, leftNormalizeClosed, Nat.shiftLeft_eq]
  push_cast
  rw [mul_assoc, ← zpow_natCast, ← zpow_add₀ two_ne_zero, decExponent]
  congr 2
  ring

/-- How many low bits of the normalized mantissa decode discards: the alignment bits (R146) and, at or
below EMIN, the shift of R145. -/
def decLostBits (w : Width) (h : Word w) : Nat :=
  w.align + (w.emin + 1 - (decNormalized w h).2).toNat

theorem dropAlignment_decDenormalized (w : Width) (h : Word w) :
    dropAlignment w (decDenormalized w h).1 = (decNormalized w h).1 / 2 ^ decLostBits w h := by
  have hshift (M : Nat) : dropAlignment w M = M / 2 ^ w.align := Nat.shiftRight_eq_div_pow _ _
  rw [hshift, decDenormalized, decLostBits]
  rcases le_or_gt (decNormalized w h).2 w.emin with he | he
  · rw [denormalize_of_le _ he, denormalizeClosed, Nat.shiftRight_eq_div_pow, Nat.div_div_eq_div_mul,
      ← pow_add, Nat.add_comm, denormalizeShift]
    congr 3
    omega
  · rw [denormalize_of_gt _ he, Int.toNat_of_nonpos (by omega), Nat.add_zero]

theorem dropAlignment_decDenormalized_lt (w : Width) (h : Word w) :
    dropAlignment w (decDenormalized w h).1 <
      2 ^ (w.mw + 1 - (w.emin + 1 - (decNormalized w h).2).toNat) := by
  rw [dropAlignment_decDenormalized]
  apply Nat.div_lt_of_lt_mul
  rw [← pow_add, decLostBits]
  refine (decNormalized_fst_lt w h).trans_le (Nat.pow_le_pow_right two_pos ?_)
  rw [hw_eq]
  omega

/-- Above EMIN the implicit bit is set (R149). -/
theorem two_pow_le_dropAlignment_decDenormalized {w : Width} {h : Word w}
    (he : w.emin < (decNormalized w h).2) :
    2 ^ w.mw ≤ dropAlignment w (decDenormalized w h).1 := by
  rw [dropAlignment_decDenormalized, decLostBits, Int.toNat_of_nonpos (by omega),
    Nat.le_div_iff_mul_le (by positivity), ← pow_add]
  rw [decNormalized_eq_closed] at he ⊢
  have htop := two_pow_le_leftNormalizeClosed_fst w _ _ (hexMant_lt w h) he
  rwa [hw_eq, show w.mw + 1 + w.align - 1 = w.mw + (w.align + 0) by omega] at htop

theorem ieeeMagnitude_assembled_subnormal {w : Width} {h : Word w}
    (he : (decNormalized w h).2 ≤ w.emin) :
    ieeeMagnitude w (assembleIeee w (signBit w h) ((decDenormalized w h).2 + w.bias)
      (dropAlignment w (decDenormalized w h).1)) =
      (dropAlignment w (decDenormalized w h).1 : ℚ) * 2 ^ (w.emin - w.mw) := by
  have hE : (decDenormalized w h).2 + w.bias = 0 := by
    rw [decDenormalized, denormalize_of_le _ he, denormalizeClosed, Width.emin, neg_add_cancel]
  have hm : dropAlignment w (decDenormalized w h).1 < 2 ^ w.mw :=
    (dropAlignment_decDenormalized_lt w h).trans_le (Nat.pow_le_pow_right two_pos (by omega))
  rw [hE, ieeeMagnitude_assembleIeee_subnormal w _ hm]

theorem ieeeMagnitude_assembled_normal {w : Width} {h : Word w}
    (he : w.emin < (decNormalized w h).2) (hmax : (decNormalized w h).2 ≤ w.emax) :
    ieeeMagnitude w (assembleIeee w (signBit w h) ((decDenormalized w h).2 + w.bias)
      (dropAlignment w (decDenormalized w h).1)) =
      (dropAlignment w (decDenormalized w h).1 : ℚ) * 2 ^ ((decNormalized w h).2 - w.mw - 1) := by
  have he_n : (decDenormalized w h).2 = (decNormalized w h).2 := by
    rw [decDenormalized, denormalize_of_gt _ he]
  have hhi := dropAlignment_decDenormalized_lt w h
  rw [Int.toNat_of_nonpos (by omega), Nat.sub_zero] at hhi
  rw [Width.emin] at he
  rw [Width.emax] at hmax
  obtain ⟨E, hE⟩ := Int.eq_ofNat_of_zero_le (show 0 ≤ (decNormalized w h).2 + w.bias by omega)
  have hlt : E < 2 ^ w.ew := by
    zify
    omega
  rw [he_n, hE, ieeeMagnitude_assembleIeee_normal w _ (by omega) hlt
    (two_pow_le_dropAlignment_decDenormalized he) hhi, ← hE, add_sub_cancel_right]

/-- What a finite result of decode denotes: the truncated mantissa, in units of the last place of the
result. An underflow has no bit of the mantissa left. -/
theorem ieeeMagnitude_dec {w : Width} {h a : Word w} (hok : dec w h = .ok a)
    (hn : nonSign w h ≠ 0) (hmax : (decNormalized w h).2 ≤ w.emax) :
    ieeeMagnitude w a = (dropAlignment w (decDenormalized w h).1 : ℚ) *
      2 ^ (max (decNormalized w h).2 (w.emin + 1) - w.mw - 1) := by
  rcases dec_cases w h with ⟨h0, -⟩ | ⟨-, hlo, hr⟩ | ⟨-, -, hX, -⟩ | ⟨-, -, -, hr⟩
  · exact absurd h0 hn
  · obtain rfl := Result.ok.inj (hok.symm.trans hr)
    have hlt := dropAlignment_decDenormalized_lt w h
    rw [show w.mw + 1 - (w.emin + 1 - (decNormalized w h).2).toNat = 0 by omega] at hlt
    rw [signedZero_eq_assembleIeee, ieeeMagnitude_assembleIeee_subnormal w _ (by positivity),
      Nat.lt_one_iff.1 hlt]
    simp
  · omega
  · obtain rfl := Result.ok.inj (hok.symm.trans hr)
    rcases le_or_gt (decNormalized w h).2 w.emin with he | he
    · rw [ieeeMagnitude_assembled_subnormal he, max_eq_right (by omega)]
      congr 2
      ring
    · rw [ieeeMagnitude_assembled_normal he hmax, max_eq_left (by omega)]

/-- Settles O55: the result keeps the quotient of the normalized mantissa by the power of two it loses, and
a dividend is below the divisor times the next quotient. -/
theorem decodeLosesLessThanOneUnit : Obligations.DecodeLosesLessThanOneUnit := by
  intro w h a hok hn hmax
  have hunit : (decNormalized w h).2 - (w.hw : Int) + (decLostBits w h : Int) =
      max (decNormalized w h).2 (w.emin + 1) - w.mw - 1 := by
    rw [hw_eq, decLostBits]
    omega
  have hdiv : ((decNormalized w h).1 : ℚ) <
      2 ^ decLostBits w h * ((dropAlignment w (decDenormalized w h).1 : ℚ) + 1) := by
    rw [dropAlignment_decDenormalized]
    exact_mod_cast Nat.lt_mul_div_succ _ (by positivity)
  calc hexMagnitude w h
      = ((decNormalized w h).1 : ℚ) * 2 ^ ((decNormalized w h).2 - w.hw) :=
        hexMagnitude_eq_decNormalized w h
    _ < 2 ^ decLostBits w h * ((dropAlignment w (decDenormalized w h).1 : ℚ) + 1) *
          2 ^ ((decNormalized w h).2 - w.hw) := mul_lt_mul_of_pos_right hdiv (by positivity)
    _ = ieeeMagnitude w a + 2 ^ (max (decNormalized w h).2 (w.emin + 1) - w.mw - 1) := by
        rw [ieeeMagnitude_dec hok hn hmax, ← hunit, zpow_add₀ two_ne_zero, zpow_natCast]
        ring

end Sys2Proof.Machine
end

section
/-! PROOFS, the family 10_state: the outcomes of the algorithms on every operand (60_exceptions.md R202). -/

namespace Sys2Proof.Machine

/-- ENC32 never fails (R202): X stays within the exponent field. -/
theorem exists_enc_w32_eq_ok (c : Config) (a : BitVec 32) : ∃ v, enc c .w32 a = .ok v := by
  rcases enc_cases c .w32 a with ⟨-, hr⟩ | ⟨-, hX, -⟩ | ⟨-, -, hr⟩ | ⟨-, -, -, hr⟩
  · exact ⟨_, hr⟩
  · exact absurd (encNormalized_snd_w32 a).2 (by omega)
  · exact ⟨_, hr⟩
  · exact ⟨_, hr⟩

/-- ENC64 fails exactly from E = 1275 (40_encode.md R115); a zero, which is bypassed, has E = 0. -/
theorem enc_w64_eq_rangeError_iff (c : Config) (a : BitVec 64) :
    enc c .w64 a = .rangeError ↔ 1275 ≤ ieeeExp .w64 a := by
  by_cases hn : nonSign .w64 a = 0
  · have hfields := nonSign_eq_ieee .w64 a
    rw [hn, mw_w64] at hfields
    rw [enc_of_nonSign_eq_zero c hn]
    exact iff_of_false nofun (by omega)
  · rw [enc_eq_rangeError_iff c .w64 a hn]
    exact (encNormalized_snd_w64 a).1

/-- No decode fails (R202). -/
theorem exists_dec_eq_ok (w : Width) (h : Word w) : ∃ v, dec w h = .ok v := by
  rcases dec_cases w h with ⟨-, hr⟩ | ⟨-, -, hr⟩ | ⟨-, -, -, hr⟩ | ⟨-, -, -, hr⟩ <;> exact ⟨_, hr⟩

/-- RESULT[63:32] of a 32-bit result (30_encoding.md R63). -/
@[simp] theorem upper_zext64 (v : BitVec 32) : BitVec.extractLsb' 32 32 (zext64 v) = 0#32 :=
  BitVec.extractLsb'_append_eq_left

end Sys2Proof.Machine
end

section
/-! PROOFS, the family 10_state: HFC by the OP of the request (10_state.md R29), and what its response tells
the requester. -/

namespace Sys2Proof.Machine

variable (c : Config) {q : Request}

theorem hfc_of_op_00 (h : Request.op q = 0b00#2) :
    hfc c q = lift32 (enc c .w32 (operand32 (Request.data q))) := by
  rw [← answer_decode, decode, if_pos h, answer]

theorem hfc_of_op_01 (h : Request.op q = 0b01#2) : hfc c q = enc c .w64 (Request.data q) := by
  simp [hfc, h]

theorem hfc_of_op_10 (h : Request.op q = 0b10#2) :
    hfc c q = lift32 (dec .w32 (operand32 (Request.data q))) := by
  simp [hfc, h, operand32_data]

theorem hfc_of_op_11 (h : Request.op q = 0b11#2) : hfc c q = dec .w64 (Request.data q) := by
  simp [hfc, h]

/-- A 32-bit request never fails, and its result is zero-extended (R63, R202). -/
theorem exists_hfc_eq_ok_zext64 (h : (Request.op q).getLsbD 0 = false) :
    ∃ v : BitVec 32, hfc c q = .ok (zext64 v) := by
  rcases op_cases (Request.op q) with hop | hop | hop | hop
  · obtain ⟨v, hv⟩ := exists_enc_w32_eq_ok c (operand32 (Request.data q))
    exact ⟨v, by rw [hfc_of_op_00 c hop, hv, lift32]⟩
  · simp [hop] at h
  · obtain ⟨v, hv⟩ := exists_dec_eq_ok .w32 (operand32 (Request.data q))
    exact ⟨v, by rw [hfc_of_op_10 c hop, hv, lift32]⟩
  · simp [hop] at h

theorem hfc_eq_rangeError_iff : hfc c q = .rangeError ↔
    Request.op q = 0b01#2 ∧ 1275 ≤ ieeeExp .w64 (Request.data q) := by
  by_cases h0 : (Request.op q).getLsbD 0 = false
  · obtain ⟨v, hv⟩ := exists_hfc_eq_ok_zext64 c h0
    rw [hv]
    exact iff_of_false nofun fun ⟨hop, _⟩ => by simp [hop] at h0
  · rcases op_cases (Request.op q) with hop | hop | hop | hop
    · simp [hop] at h0
    · rw [hfc_of_op_01 c hop, enc_w64_eq_rangeError_iff]
      exact (and_iff_right hop).symm
    · simp [hop] at h0
    · obtain ⟨v, hv⟩ := exists_dec_eq_ok .w64 (Request.data q)
      rw [hfc_of_op_11 c hop, hv]
      exact iff_of_false nofun fun ⟨hop', _⟩ => by simp [hop] at hop'

theorem transactionOk_hfc (q : Request) : TransactionOk q (hfc c q) where
  rangeError_iff := hfc_eq_rangeError_iff c
  upper_zero v hv h0 := by
    obtain ⟨u, hu⟩ := exists_hfc_eq_ok_zext64 c h0
    rw [← Result.ok.inj (hu.symm.trans hv), upper_zext64]

end Sys2Proof.Machine
end

section
/-! PROOFS, the family 10_state: what a step and a run keep (10_state.md R29, 20_memory.md R44). -/

namespace Sys2Proof.Machine

/-- What the state after a step can be: the same one, or the oldest request has moved to the accepted ones
and HFC of it to the responses. -/
theorem step_eq_next {s t : State} (h : step s = .next t) :
    t = s ∨ ∃ q rest, s.requests = q :: rest ∧
      t = { config := s.config, requests := rest, accepted := s.accepted ++ [q],
            responses := s.responses ++ [hfc s.config q] } := by
  rcases step_cases s with ⟨-, hs⟩ | ⟨q, rest, hq, -⟩
  · exact .inl (Host.Outcome.next.inj (h.symm.trans hs))
  · exact .inr ⟨q, rest, hq, Host.Outcome.next.inj (h.symm.trans (step_of_requests_cons hq))⟩

theorem exists_step_eq_next (s : State) : ∃ t, step s = .next t := by
  rcases step_cases s with ⟨-, hs⟩ | ⟨q, rest, -, hs⟩ <;> exact ⟨_, hs⟩

/-- A run of one step more is the run from the state that the first step answers. -/
theorem run_succ_of_step {s t : State} (h : step s = .next t) (k : Nat) :
    Host.Core.run Sys2Proof.core (k + 1) s = Host.Core.run Sys2Proof.core k t := by
  have hcore : Sys2Proof.core.step s = .next t := h
  simp only [Host.Core.run, hcore]

/-- Settles O15: the only response that a step adds is HFC of the request it accepts, at the same build. -/
theorem stepKeepsResponsesFaithful : Obligations.StepKeepsResponsesFaithful := by
  intro s t hs hstep
  rcases step_eq_next hstep with rfl | ⟨q, rest, -, rfl⟩
  · exact hs
  · rw [State.Faithful] at hs ⊢
    rw [List.map_append, hs]
    rfl

/-- Settles O16: a step adds one transaction, and `transactionOk_hfc` says that it is as described. -/
theorem stepKeepsTransactionsOk : Obligations.StepKeepsTransactionsOk := by
  intro s t hs hstep
  rcases step_eq_next hstep with rfl | ⟨q, rest, -, rfl⟩
  · exact hs
  · exact List.rel_append hs (.cons (transactionOk_hfc s.config q) .nil)

/-- Settles O10: the step of a state with a request waiting. -/
theorem eachRequestGetsItsResponse : Obligations.EachRequestGetsItsResponse :=
  fun _ _ _ h => step_of_requests_cons h

/-- Settles O11, by induction on the number of steps: the first step answers the oldest request, and the
others answer the rest from there. -/
theorem runAnswersRequestsInOrder : Obligations.RunAnswersRequestsInOrder := by
  intro s k hk
  induction k generalizing s with
  | zero => simp [Host.Core.run]
  | succ k ih =>
    obtain ⟨q, rest, hq⟩ := List.exists_cons_of_length_pos (Nat.zero_lt_of_lt hk)
    rw [run_succ_of_step (step_of_requests_cons hq), ih _ (by simpa [hq] using hk)]
    simp [hq]

/-- Settles O13: each state answers HFC of the same request under the same build. -/
theorem responseIgnoresHistory : Obligations.ResponseIgnoresHistory := by
  intro s t q rs rt hconfig hs ht
  refine ⟨_, _, hfc s.config q, step_of_requests_cons hs, step_of_requests_cons ht, rfl, ?_⟩
  rw [hconfig]

/-- Settles O14, by induction on the number of steps, each of which answers a next state. -/
theorem everyRunIsSafe : Obligations.EveryRunIsSafe := by
  intro s k
  induction k generalizing s with
  | zero => exact ⟨s, rfl⟩
  | succ k ih =>
    obtain ⟨t, ht⟩ := exists_step_eq_next s
    rw [run_succ_of_step ht]
    exact ih t

/-- Settles O7: accepting moves the request, and the step runs what it decodes to there. -/
theorem stepRunsTheDecodedRequest : Obligations.StepRunsTheDecodedRequest := by
  intro s q rest h
  rw [step, fetch_cons h]

/-- Settles O18: an operation's next state is the state before with one response delivered. -/
theorem operationsOnlyDeliverAResponse : Obligations.OperationsOnlyDeliverAResponse := by
  intro i s t h
  obtain rfl := Host.Outcome.next.inj ((exec_eq_deliver i s).symm.trans h)
  exact ⟨rfl, rfl, rfl, answer s.config i, rfl⟩

/-- Settles O20: `answer` names the algorithm of each operation, and the operation delivers its answer. -/
theorem operationsRunTheirAlgorithm : Obligations.OperationsRunTheirAlgorithm := fun s =>
  ⟨fun a => exec_eq_deliver (.ieeeSingleToHex a) s, fun a => exec_eq_deliver (.ieeeDoubleToHex a) s,
    fun h => exec_eq_deliver (.hexToIeeeSingle h) s, fun h => exec_eq_deliver (.hexToIeeeDouble h) s⟩

end Sys2Proof.Machine
end

section
/-! PROOFS, the family 20_memory: interleaved requests of several requesters (20_memory.md R44, R45). -/

namespace Sys2Proof.Machine

/-- Running all waiting requests answers every one of them, in request order. -/
theorem run_all_requests (s : State) :
    Host.Core.run Sys2Proof.core s.requests.length s =
      .next { config := s.config, requests := [], accepted := s.accepted ++ s.requests,
              responses := s.responses ++ s.requests.map (hfc s.config) } := by
  rw [runAnswersRequestsInOrder s _ le_rfl, List.drop_length, List.take_length]

/-- What one owner gets of values computed entry by entry is computed from that owner's own entries. -/
theorem map_snd_filter_zip_map {α β : Type} (f : α → β) (owners : List Nat) (xs : List α) (o : Nat) :
    ((owners.zip (xs.map f)).filter (fun p => p.1 == o)).map Prod.snd =
      ((owners.zip xs).filter (fun p => p.1 == o)).map (fun p => f p.2) := by
  rw [List.zip_map_right, List.filter_map, List.map_map]
  rfl

/-- Settles O12: the run's new responses are HFC of the requests position by position, so choosing the
positions of one owner chooses that owner's requests and their responses alike. -/
theorem interleavingGivesEachRequesterItsResponses :
    Obligations.InterleavingGivesEachRequesterItsResponses := by
  intro s owners _
  refine ⟨_, run_all_requests s, fun o => ?_⟩
  rw [List.drop_left]
  exact map_snd_filter_zip_map (hfc s.config) owners s.requests o

end Sys2Proof.Machine
end

section
/-! PROOFS, the family 30_encoding: request and response words (30_encoding.md R60-R66). -/

namespace Sys2Proof

/-- A request word is put together from its own OP and DATA (R60). -/
theorem requestWord_op_data (q : Request) : requestWord (Request.op q) (Request.data q) = q := by
  apply BitVec.eq_of_toNat_eq
  rw [requestWord, toNat_append_add, toNat_op, toNat_data]
  omega

@[simp] theorem decode_requestWord_00 (d : Data) :
    decode (requestWord 0b00#2 d) = .ieeeSingleToHex (operand32 d) := by simp [decode]

@[simp] theorem decode_requestWord_01 (d : Data) :
    decode (requestWord 0b01#2 d) = .ieeeDoubleToHex d := by simp [decode, operand64]

@[simp] theorem decode_requestWord_10 (d : Data) :
    decode (requestWord 0b10#2 d) = .hexToIeeeSingle (operand32 d) := by simp [decode]

@[simp] theorem decode_requestWord_11 (d : Data) :
    decode (requestWord 0b11#2 d) = .hexToIeeeDouble d := by simp [decode, operand64]

/-- The bits of the left one of two words side by side. -/
theorem getLsbD_append_add {n k : Nat} (x : BitVec n) (y : BitVec k) (i : Nat) :
    (x ++ y).getLsbD (i + k) = x.getLsbD i := by
  rw [BitVec.getLsbD_append, if_neg (by omega), Nat.add_sub_cancel]

/-- OP is bits 65 and 64 of the request word (R60). -/
theorem getLsbD_op (q : Request) (i : Nat) : (Request.op q).getLsbD i = q.getLsbD (i + 64) := by
  rw [← getLsbD_append_add (Request.op q) (Request.data q), ← requestWord, requestWord_op_data]

/-- The mask that clears the ignored `DATA[63:32]` of a 32-bit request leaves its operand (R63). -/
theorem requestWord_and_operand32_mask (o : BitVec 2) (d : Data) :
    requestWord o d &&& 0x300000000FFFFFFFF#66 = requestWord o (0#32 ++ operand32 d) := by
  have hmask : 0x300000000FFFFFFFF#66 = BitVec.allOnes 2 ++ (0#32 ++ BitVec.allOnes 32) := rfl
  have hd : d = BitVec.extractLsb' 32 32 d ++ operand32 d := by
    rw [operand32, BitVec.extractLsb'_append_extractLsb'_eq_extractLsb' (Nat.zero_add 32).symm,
      BitVec.extractLsb'_eq_self]
  rw [hmask, requestWord, BitVec.and_append, BitVec.and_allOnes]
  nth_rw 1 [hd]
  rw [BitVec.and_append, BitVec.and_zero, BitVec.and_allOnes, requestWord]

/-- Settles O4: the encoder puts an operand where the decoder reads it; the other way round, OP and DATA
of the word come back, and of a 32-bit operation's DATA only the operand. -/
theorem decodeAndEncodeAgree : Obligations.DecodeAndEncodeAgree := by
  refine ⟨fun i _ => ?_, fun q => ?_⟩
  · cases i <;> simp [encode]
  · rw [← getLsbD_op q 0, ← requestWord_op_data q]
    rcases op_cases (Request.op q) with h | h | h | h <;>
      simp [h, encode, requestWord_and_operand32_mask]

/-- Settles O1, for each of the four values of OP. -/
theorem opBitsSelectDirectionAndWidth : Obligations.OpBitsSelectDirectionAndWidth := by
  intro q
  rw [← getLsbD_op q 0, ← getLsbD_op q 1, ← requestWord_op_data q]
  rcases op_cases (Request.op q) with h | h | h | h <;> simp [h, Instr.direction, Instr.width]

/-- Settles O2: the decoder's equation for each value of OP. -/
theorem eachOpValueSelectsItsOperation : Obligations.EachOpValueSelectsItsOperation := fun d =>
  ⟨decode_requestWord_00 d, decode_requestWord_01 d, decode_requestWord_10 d, decode_requestWord_11 d⟩

/-- Settles O3, by evaluating the decoder on the five words. -/
theorem programWordsDecode : Obligations.ProgramWordsDecode := by
  unfold Obligations.ProgramWordsDecode
  decide

/-- Settles O5: a request word is its two fields, and a response word is put together from its own. -/
theorem requestAndResponseWordLayout : Obligations.RequestAndResponseWordLayout := by
  refine ⟨fun q => (requestWord_op_data q).symm, fun driven r => ?_⟩
  cases r with
  | ok v =>
    refine ⟨getLsbD_append_add 0#1 v 0, fun u hu => ?_⟩
    obtain rfl := Option.some.inj hu
    exact BitVec.extractLsb'_append_eq_right
  | rangeError => exact ⟨getLsbD_append_add 1#1 driven 0, nofun⟩

end Sys2Proof
end

section
/-! PROOFS, the family 30_encoding: what a 32-bit request's response depends on (30_encoding.md R63). -/

namespace Sys2Proof.Machine

/-- Two 32-bit requests with one OP and one operand have the same response (R63). -/
theorem hfc_eq_of_operand32_eq (c : Config) {q q' : Request} (hop : Request.op q = Request.op q')
    (h0 : (Request.op q).getLsbD 0 = false)
    (hx : operand32 (Request.data q) = operand32 (Request.data q')) : hfc c q = hfc c q' := by
  rcases op_cases (Request.op q) with h | h | h | h
  · rw [hfc_of_op_00 c h, hfc_of_op_00 c (hop ▸ h), hx]
  · simp [h] at h0
  · rw [hfc_of_op_10 c h, hfc_of_op_10 c (hop ▸ h), hx]
  · simp [h] at h0

/-- Settles O19: each step delivers HFC of its request, which is the same for both and zero-extended. -/
theorem upperDataOfSingleRequestsIsIgnored : Obligations.UpperDataOfSingleRequestsIsIgnored := by
  intro s q q' hop h0 hx
  obtain ⟨v, hv⟩ := exists_hfc_eq_ok_zext64 s.config h0
  have hv' : hfc s.config q' = .ok (zext64 v) := hfc_eq_of_operand32_eq s.config hop h0 hx ▸ hv
  refine ⟨zext64 v, upper_zext64 v, ?_, ?_⟩
  · rw [step_of_requests_cons (presentNext_requests s q), presentNext_config, hv]
    rfl
  · rw [step_of_requests_cons (presentNext_requests s q'), presentNext_config, hv']
    rfl

end Sys2Proof.Machine
end

section
/-! PROOFS, the family 30_encoding: the field masks (30_encoding.md R67-R71). -/

namespace Sys2Proof

/-- Masking with n ones from bit k on selects the n-bit field at bit k, in its place. -/
theorem and_ones_mul_two_pow (x n k : Nat) :
    x &&& (2 ^ n - 1) * 2 ^ k = x / 2 ^ k % 2 ^ n * 2 ^ k := by
  rw [← Nat.and_two_pow_sub_one_eq_mod, ← Nat.shiftRight_eq_div_pow, ← Nat.shiftLeft_eq,
    ← Nat.shiftLeft_eq]
  apply Nat.eq_of_testBit_eq
  intro i
  by_cases hi : k ≤ i <;> simp [hi, Bool.and_comm]

/-- A word masked with n ones from bit k on. -/
theorem toNat_and_of_ones {w : Width} (a : Word w) {mask : Word w} {n k : Nat}
    (h : mask.toNat = (2 ^ n - 1) * 2 ^ k) :
    (a &&& mask).toNat = a.toNat / 2 ^ k % 2 ^ n * 2 ^ k := by
  rw [BitVec.toNat_and, h, and_ones_mul_two_pow]

/-- A word masked with n ones from bit 0 on. -/
theorem toNat_and_of_low_ones {w : Width} (a : Word w) {mask : Word w} {n : Nat}
    (h : mask.toNat = 2 ^ n - 1) : (a &&& mask).toNat = a.toNat % 2 ^ n := by
  rw [BitVec.toNat_and, h, Nat.and_two_pow_sub_one_eq_mod]

/-- The sign bit as the number in its one-bit field. -/
theorem toNat_signBit (w : Width) (a : Word w) :
    (signBit w a).toNat = a.toNat / 2 ^ (w.bits - 1) % 2 ^ 1 :=
  Nat.toNat_testBit a.toNat (w.bits - 1)

theorem topNibble_hexMant (w : Width) (a : Word w) :
    topNibble w (hexMant w a) = a.toNat / 2 ^ (w.hw - 4) % 2 ^ 4 := by
  rw [topNibble, hexMant_eq, Nat.shiftRight_eq_div_pow]
  cases w <;> simp <;> omega

theorem toNat_topBit_hexMant (w : Width) (a : Word w) :
    (topBit w (hexMant w a)).toNat = a.toNat / 2 ^ (w.hw - 1) % 2 ^ 1 := by
  rw [topBit, hexMant_eq, Nat.toNat_testBit]
  cases w <;> simp <;> omega

/-- Settles O6: each mask is a row of ones, and the field it selects is the quotient and remainder that
defines the field. -/
theorem fieldMasksSelectTheFields : Obligations.FieldMasksSelectTheFields := by
  intro w a
  refine ⟨?sign, ?nonSign, ?ieeeExp, ?ieeeFrac, ?implicit, ?hexExp, ?hexMant, ?nibble, ?bit⟩
  case sign =>
    rw [toNat_signBit]
    exact toNat_and_of_ones a (by cases w <;> rfl)
  case nonSign =>
    rw [nonSign_eq_mod]
    exact toNat_and_of_low_ones a (by cases w <;> rfl)
  case ieeeExp =>
    rw [ieeeExp_eq]
    exact toNat_and_of_ones a (by cases w <;> rfl)
  case ieeeFrac =>
    rw [ieeeFrac_eq]
    exact toNat_and_of_low_ones a (by cases w <;> rfl)
  case implicit => cases w <;> rfl
  case hexExp =>
    rw [hexExp_eq]
    exact toNat_and_of_ones a (n := 7) (by cases w <;> rfl)
  case hexMant =>
    rw [hexMant_eq]
    exact toNat_and_of_low_ones a (by cases w <;> rfl)
  case nibble =>
    rw [topNibble_hexMant]
    exact toNat_and_of_ones a (by cases w <;> rfl)
  case bit =>
    rw [toNat_topBit_hexMant]
    exact toNat_and_of_ones a (by cases w <;> rfl)

end Sys2Proof
end

section
/-! PROOFS, the family 30_encoding: hex digits and the numbers they denote (30_encoding.md R75). -/

namespace Sys2Proof

@[simp] theorem hexDigit_hexChar (d : BitVec 4) : hexDigit (hexChar d) = some d := by
  revert d
  decide

/-- Digits written as characters read back as themselves. -/
theorem mapM_hexDigit_map_hexChar (ds : List (BitVec 4)) :
    (ds.map hexChar).mapM hexDigit = some ds := by
  induction ds with
  | nil => rfl
  | cons d ds ih => simp [ih]

@[simp] theorem readLiteral_literalText (ds : List (BitVec 4)) :
    readLiteral (literalText ds) = some ds :=
  mapM_hexDigit_map_hexChar ds

@[simp] theorem length_hexDigits (k v : Nat) : (hexDigits k v).length = k := by
  induction k with
  | zero => rfl
  | succ k ih => simp [hexDigits, ih]

/-- Reading on from the number n, the k digits of v take the places below it. -/
theorem foldl_hexDigits (k v n : Nat) :
    (hexDigits k v).foldl (fun n d => 16 * n + d.toNat) n = n * 16 ^ k + v % 16 ^ k := by
  induction k generalizing n with
  | zero => simp [hexDigits, Nat.mod_one]
  | succ k ih =>
    have hv : v % 16 ^ (k + 1) = v % 16 ^ k + 16 ^ k * (v / 16 ^ k % 16) := by
      rw [Nat.pow_succ, Nat.mod_mul]
    rw [hexDigits, List.foldl_cons, ih, BitVec.toNat_ofNat, hv]
    ring

/-- The k digits of a number of at most k digits denote it. -/
theorem hexNumber_hexDigits {k v : Nat} (h : v < 16 ^ k) : hexNumber (hexDigits k v) = v := by
  rw [hexNumber, foldl_hexDigits, Nat.zero_mul, Nat.zero_add, Nat.mod_eq_of_lt h]

/-- Settles O60: the first digit is below 4 and reads back as OP, the sixteen others as DATA. -/
theorem requestTextReadsBack : Obligations.RequestTextReadsBack := by
  intro q
  have hop := (Request.op q).isLt
  have hdata : hexNumber (hexDigits 16 (Request.data q).toNat) = (Request.data q).toNat :=
    hexNumber_hexDigits (Request.data q).isLt
  have hdigit : (BitVec.ofNat 4 (Request.op q).toNat).toNat = (Request.op q).toNat :=
    Nat.mod_eq_of_lt (by omega)
  simp only [readRequest, requestText, hexDigit_hexChar, mapM_hexDigit_map_hexChar, hdigit, hdata,
    length_hexDigits]
  rw [if_pos ⟨hop, trivial⟩, BitVec.ofNat_toNat, BitVec.ofNat_toNat, BitVec.setWidth_eq,
    BitVec.setWidth_eq, requestWord_op_data]

end Sys2Proof
end

section
/-! PROOFS, the family 30_encoding: splitting a source line into words (30_encoding.md R75). -/

namespace Sys2Proof

/-- A character that ends the word before it: a semicolon, a blank or a comma. -/
def isSeparator (c : Char) : Bool := c = ';' || c = ' ' || c = ','

/-- Other characters are added to the word being read. -/
theorem words_cons_of_not_separator {c : Char} (hc : isSeparator c = false) (word cs : List Char) :
    words word (c :: cs) = words (c :: word) cs := by
  simp only [isSeparator, Bool.or_eq_false_iff, decide_eq_false_iff_not] at hc
  obtain ⟨⟨hsemi, hblank⟩, hcomma⟩ := hc
  rw [words, if_neg hsemi, if_neg hblank, if_neg hcomma]

theorem words_append_of_not_separator {cs : List Char} (hcs : ∀ c ∈ cs, isSeparator c = false)
    (word rest : List Char) : words word (cs ++ rest) = words (cs.reverse ++ word) rest := by
  induction cs generalizing word with
  | nil => rfl
  | cons c cs ih =>
    rw [List.forall_mem_cons] at hcs
    rw [List.cons_append, words_cons_of_not_separator hcs.1, ih hcs.2, List.reverse_cons,
      List.append_assoc, List.singleton_append]

@[simp] theorem words_nil_blank (cs : List Char) : words [] (' ' :: cs) = words [] cs := by
  simp [words]

@[simp] theorem words_nil_comma (cs : List Char) : words [] (',' :: cs) = [','] :: words [] cs := by
  simp [words]

/-- At a separator, or at the end of the line, the word that was being read is complete. -/
theorem words_of_separator {word rest : List Char} (hword : word ≠ [])
    (hrest : ∀ c ∈ rest.head?, isSeparator c = true) :
    words word rest = word.reverse :: words [] rest := by
  cases rest with
  | nil => simp [words, hword]
  | cons c cs =>
    have hc : (c = ';' ∨ c = ' ') ∨ c = ',' := by simpa [isSeparator] using hrest c rfl
    rcases hc with (rfl | rfl) | rfl <;> simp [words, hword]

/-- A text that a line can hold as one word: some characters, none of which ends a word. -/
def IsWord (cs : List Char) : Prop := cs ≠ [] ∧ ∀ c ∈ cs, isSeparator c = false

/-- A word before a separator or at the end of the line is the first word of the line. -/
theorem words_append {cs rest : List Char} (hcs : IsWord cs)
    (hrest : ∀ c ∈ rest.head?, isSeparator c = true) :
    words [] (cs ++ rest) = cs :: words [] rest := by
  obtain ⟨hne, hcs⟩ := hcs
  rw [words_append_of_not_separator hcs, List.append_nil,
    words_of_separator (List.reverse_ne_nil_iff.2 hne) hrest, List.reverse_reverse]

theorem words_append_blank {cs : List Char} (hcs : IsWord cs) (rest : List Char) :
    words [] (cs ++ ' ' :: rest) = cs :: words [] rest := by
  rw [words_append hcs (by simp [isSeparator]), words_nil_blank]

theorem words_append_comma {cs : List Char} (hcs : IsWord cs) (rest : List Char) :
    words [] (cs ++ ',' :: rest) = cs :: [','] :: words [] rest := by
  rw [words_append hcs (by simp [isSeparator]), words_nil_comma]

/-- A line that is one word. -/
theorem words_single {cs : List Char} (hcs : IsWord cs) : words [] cs = [cs] := by
  simpa [words] using words_append hcs (rest := []) (by simp)

/-- A comment after a line gives no further words, whatever the line (R75). -/
theorem words_append_comment (word line comment : List Char) :
    words word (line ++ ' ' :: ';' :: comment) = words word line := by
  induction line generalizing word with
  | nil => simp [words]
  | cons c cs ih => simp only [List.cons_append, words, ih]

theorem isWord_mnemonicText (d : Direction) (w : Width) (sp : Spelling) :
    IsWord (mnemonicText d w sp) := by
  cases d <;> cases w <;> cases sp <;> simp [IsWord, mnemonicText, isSeparator]

theorem isWord_genericText (d : Direction) : IsWord (genericText d) := by
  cases d <;> simp [IsWord, genericText, isSeparator]

theorem isWord_widthText (w : Width) : IsWord (widthText w) := by
  cases w <;> simp [IsWord, widthText, isSeparator]

theorem isSeparator_hexChar (d : BitVec 4) : isSeparator (hexChar d) = false := by
  revert d
  decide

theorem isWord_literalText (ds : List (BitVec 4)) : IsWord (literalText ds) := by
  have hchars : isSeparator '0' = false ∧ isSeparator 'x' = false := by decide
  simp [IsWord, literalText, isSeparator_hexChar, hchars]

/-- The two words of a named request's line (R75). -/
theorem words_namedLine (d : Direction) (w : Width) (sp : Spelling) (ds : List (BitVec 4)) :
    words [] (namedLine d w sp ds) = [mnemonicText d w sp, literalText ds] := by
  rw [namedLine, words_append_blank (isWord_mnemonicText d w sp),
    words_single (isWord_literalText ds)]

/-- The four words of a pseudo-operation's line (R76). -/
theorem words_genericLine (d : Direction) (w : Width) (ds : List (BitVec 4)) :
    words [] (genericLine d w ds) = [genericText d, literalText ds, [','], widthText w] := by
  rw [genericLine, words_append_blank (isWord_genericText d),
    words_append_comma (isWord_literalText ds), words_nil_blank, words_single (isWord_widthText w)]

end Sys2Proof
end

section
/-! PROOFS, the family 30_encoding: reading and assembling source lines (30_encoding.md R74-R76). -/

namespace Sys2Proof

@[simp] theorem lookupMnemonic_mnemonicText (d : Direction) (w : Width) (sp : Spelling) :
    lookupMnemonic (mnemonicText d w sp) = some (d, w, sp) := by
  cases d <;> cases w <;> cases sp <;> decide

@[simp] theorem lookupGeneric_genericText (d : Direction) :
    lookupGeneric (genericText d) = some d := by
  cases d <;> decide

@[simp] theorem readDecimal_widthText (w : Width) : readDecimal (widthText w) = some w.bits := by
  cases w <;> decide

@[simp] theorem widthOfNat_bits (w : Width) : widthOfNat w.bits = some w := by
  cases w <;> rfl

theorem eq_bits_of_widthOfNat {n : Nat} {w : Width} (h : widthOfNat n = some w) : n = w.bits := by
  unfold widthOfNat at h
  split at h <;> cases h <;> rfl

/-- A named request's line reads as the source it was written for (R75). -/
theorem readSource_namedLine (d : Direction) (w : Width) (sp : Spelling) (ds : List (BitVec 4)) :
    readSource (namedLine d w sp ds) = .ok (.named d w sp ds) := by
  simp [readSource, words_namedLine]

/-- A pseudo-operation's line reads as the source it was written for (R76). -/
theorem readSource_genericLine (d : Direction) (w : Width) (ds : List (BitVec 4)) :
    readSource (genericLine d w ds) = .ok (.generic d ds w.bits) := by
  simp [readSource, words_genericLine]

theorem assembleLine_namedLine (d : Direction) (w : Width) (sp : Spelling) (ds : List (BitVec 4)) :
    assembleLine (namedLine d w sp ds) = assembleOperand d w ds := by
  simp only [assembleLine, readSource_namedLine, Source.assemble]

theorem assembleLine_genericLine (d : Direction) (w : Width) (ds : List (BitVec 4)) :
    assembleLine (genericLine d w ds) = assembleOperand d w ds := by
  simp only [assembleLine, readSource_genericLine, Source.assemble, widthOfNat_bits]

/-- A comment behind a line changes nothing (R75). -/
theorem assembleLine_append_comment (line comment : List Char) :
    assembleLine (line ++ ' ' :: ';' :: comment) = assembleLine line := by
  simp only [assembleLine, readSource, words_append_comment]

theorem assembleOperand_of_digitCountOk (d : Direction) {w : Width} {ds : List (BitVec 4)}
    (h : digitCountOk w ds = true) :
    assembleOperand d w ds = .ok (requestWord (opBits d w) (BitVec.ofNat 64 (hexNumber ds))) :=
  if_pos h

theorem assembleOperand_of_not_digitCountOk (d : Direction) {w : Width} {ds : List (BitVec 4)}
    (h : digitCountOk w ds = false) : assembleOperand d w ds = .error .wrongDigitCount := by
  simp [assembleOperand, h]

/-- Zero-extending a 32-bit word to DATA is placing it in DATA[31:0] (R63). -/
theorem setWidth_64_eq_append (x : BitVec 32) : x.setWidth 64 = 0#32 ++ x :=
  BitVec.setWidth_eq_append (by decide)

/-- The line that writes an operand with its W/4 digits assembles to that operand, zero-extended in DATA
(R63, R64). -/
theorem assembleLine_namedLine_hexDigits (d : Direction) (w : Width) (sp : Spelling) (a : Word w) :
    assembleLine (namedLine d w sp (hexDigits (w.bits / 4) a.toNat)) =
      .ok (requestWord (opBits d w) (a.setWidth 64)) := by
  have ha : a.toNat < 16 ^ (w.bits / 4) := by
    cases w <;> exact a.isLt
  rw [assembleLine_namedLine, assembleOperand_of_digitCountOk d (by simp [digitCountOk]),
    hexNumber_hexDigits ha, BitVec.ofNat_toNat]

/-- The operation of an assembled word has the direction and the width of its OP (R62). -/
theorem direction_width_decode_requestWord (d : Direction) (w : Width) (x : Data) :
    (decode (requestWord (opBits d w) x)).direction = d ∧
      (decode (requestWord (opBits d w) x)).width = w := by
  cases d <;> cases w <;> simp [opBits, Instr.direction, Instr.width]

/-- Settles O56: an operation's line is the named line of its operand's digits. -/
theorem operationTextAssembles : Obligations.OperationTextAssembles := by
  intro i
  cases i with
  | ieeeSingleToHex a =>
    have h := assembleLine_namedLine_hexDigits .ieeeToHex .w32 .routine a
    rwa [setWidth_64_eq_append] at h
  | ieeeDoubleToHex a =>
    have h := assembleLine_namedLine_hexDigits .ieeeToHex .w64 .routine a
    rwa [BitVec.setWidth_eq] at h
  | hexToIeeeSingle a =>
    have h := assembleLine_namedLine_hexDigits .hexToIeee .w32 .routine a
    rwa [setWidth_64_eq_append] at h
  | hexToIeeeDouble a =>
    have h := assembleLine_namedLine_hexDigits .hexToIeee .w64 .routine a
    rwa [BitVec.setWidth_eq] at h

/-- Settles O57: a named line assembles by its operation and digits alone, and a comment adds no words. -/
theorem aliasesAssembleAlike : Obligations.AliasesAssembleAlike := by
  intro d w name ds comment hlen
  refine ⟨?_, assembleLine_append_comment _ comment⟩
  rw [assembleLine_namedLine, assembleOperand_of_digitCountOk d (by simp [digitCountOk, hlen])]

/-- Settles O58: both lines assemble by their operation and digits alone. -/
theorem genericFormsExpand : Obligations.GenericFormsExpand := fun d w ds => by
  rw [assembleLine_genericLine, assembleLine_namedLine]

/-- Settles O59: what the well-formedness check asks, width and digit count, is what assembling asks. -/
theorem illFormedSourcesAreRefused : Obligations.IllFormedSourcesAreRefused := by
  refine ⟨fun src hsrc => ?refused, fun d w name ds hok => ?named, fun d n ds hok => ?generic⟩
  case refused =>
    cases src with
    | named d w name ds => exact .inr (assembleOperand_of_not_digitCountOk d hsrc)
    | generic d ds n =>
      cases hw : widthOfNat n with
      | none => exact .inl (by rw [Source.assemble, hw])
      | some w =>
        rw [Source.wellFormed, hw] at hsrc
        rw [Source.assemble, hw]
        exact .inr (assembleOperand_of_not_digitCountOk d hsrc)
  case named =>
    exact ⟨_, assembleOperand_of_digitCountOk d hok, direction_width_decode_requestWord d w _⟩
  case generic =>
    cases hw : widthOfNat n with
    | none => simp [Source.wellFormed, hw] at hok
    | some w =>
      rw [Source.wellFormed, hw] at hok
      rw [Source.assemble, hw, eq_bits_of_widthOfNat hw]
      obtain ⟨hd, hwidth⟩ := direction_width_decode_requestWord d w (BitVec.ofNat 64 (hexNumber ds))
      exact ⟨_, assembleOperand_of_digitCountOk d hok, hd, by rw [hwidth]⟩

end Sys2Proof
end

section
/-! PROOFS, the family 40_encode: the steps of encode before assembly (40_encode.md R103-R107, R113). -/

namespace Sys2Proof.Machine

/-- R103 as one quotient: X - 64 is e / 4 rounded up. -/
theorem rebase_eq (e : Int) : rebase e = 64 - -e / 4 := by
  have h4 := four_mul_rebase e
  have hs := remainderShift_le e
  omega

/-- R106 as one remainder: the shift is what e lacks to the next multiple of 4. -/
theorem remainderShift_eq (e : Int) : remainderShift e = (-e % 4).toNat := by
  have h4 := four_mul_rebase e
  have hs := remainderShift_le e
  omega

/-- A nonzero exponent field keeps an operand from the zero bypass (R101). -/
theorem nonSign_ne_zero_of_ieeeExp {w : Width} {a : Word w} (hE : ieeeExp w a ≠ 0) :
    nonSign w a ≠ 0 := by
  have hpos : 0 < ieeeExp w a * 2 ^ w.mw := Nat.mul_pos (Nat.pos_of_ne_zero hE) (by positivity)
  rw [nonSign_eq_ieee]
  omega

/-- With E ≠ 0 the implicit bit is the top bit of the hex mantissa field (R105). -/
theorem two_pow_le_alignToHex (w : Width) {E f : Nat} (hE : E ≠ 0) (hf : f < 2 ^ w.mw) :
    2 ^ (w.hw - 1) ≤ alignToHex w (significand w E f) := by
  rw [alignToHex_eq_mul, significand_of_ne_zero w hE hf, hw_eq,
    show w.mw + 1 + w.align - 1 = w.mw + w.align by omega, pow_add]
  exact Nat.mul_le_mul_right _ (Nat.le_add_right _ _)

/-- With E ≠ 0 the remainder shift leaves a bit in the top nibble (R113). -/
theorem two_pow_le_encMantissa {w : Width} {a : Word w} (hE : ieeeExp w a ≠ 0) :
    2 ^ (w.hw - 4) ≤ encMantissa w a := by
  rw [encMantissa_eq_div, Nat.le_div_iff_mul_le (by positivity)]
  calc 2 ^ (w.hw - 4) * 2 ^ remainderShift (encExponent w a) ≤ 2 ^ (w.hw - 4) * 2 ^ 3 :=
        Nat.mul_le_mul_left _ (Nat.pow_le_pow_right two_pos (remainderShift_le _))
    _ = 2 ^ (w.hw - 1) := by cases w <;> rfl
    _ ≤ _ := two_pow_le_alignToHex w hE (ieeeFrac_lt w a)

/-- The loop of R107 ends at a hex-normalized mantissa: of the leading zeros fewer than four stay. -/
theorem topNibble_renormalizeClosed_ne_zero (w : Width) {M : Nat} (X : Int) (hM : M < 2 ^ w.hw)
    (h0 : M ≠ 0) : topNibble w (renormalizeClosed w M X).1 ≠ 0 := by
  have hlt := renormalizeClosed_fst_lt w M X hM
  rw [Ne, topNibble_eq_zero_iff w _ hlt]
  simp only [renormalizeClosed, Nat.shiftLeft_eq] at hlt ⊢
  rw [lt_two_pow_iff_le_lzc _ _ _ (by positivity) hlt, lzc_mul_two_pow _ _ _ h0,
    renormalizeRounds, if_neg h0]
  omega

theorem hexNormalized_encNormalized {w : Width} {a : Word w}
    (h : ieeeExp w a ≠ 0 ∨ encMantissa w a ≠ 0) : hexNormalized w (encNormalized w a).1 = true := by
  rw [hexNormalized, bne_iff_ne]
  by_cases hE : ieeeExp w a = 0
  · rw [encNormalized_of_zero hE]
    exact topNibble_renormalizeClosed_ne_zero w _ (encMantissa_lt w a) (h.resolve_left (absurd hE))
  · rw [encNormalized_of_ne_zero hE, Ne, topNibble_eq_zero_iff w _ (encMantissa_lt w a), not_lt]
    exact two_pow_le_encMantissa hE

/-- A hex-normalized mantissa is not zero. -/
theorem ne_zero_of_hexNormalized {w : Width} {M : Nat} (h : hexNormalized w M = true) : M ≠ 0 := by
  rintro rfl
  simp [hexNormalized, topNibble] at h

/-- With E = 0 the extra shift of R104 makes up one of the two positions of the remainder shift. -/
theorem encMantissa_w32_of_zero {a : BitVec 32} (hE : ieeeExp .w32 a = 0) :
    encMantissa .w32 a = ieeeFrac .w32 a >>> 1 := by
  have hsh : remainderShift (encExponent .w32 a) = 2 := by rw [encExponent, hE]; rfl
  rw [encMantissa_w32, hE, significand_zero, hsh, Nat.shiftRight_eq_div_pow]
  omega

/-- With E = 0 the extra shift and the alignment together exceed the remainder shift by two. -/
theorem encMantissa_w64_of_zero {a : BitVec 64} (hE : ieeeExp .w64 a = 0) :
    encMantissa .w64 a = ieeeFrac .w64 a <<< 2 := by
  have hsh : remainderShift (encExponent .w64 a) = 2 := by rw [encExponent, hE]; rfl
  have hM := encMantissa_mul_two_pow_w64 a
  rw [hE, significand_zero, hsh] at hM
  rw [Nat.shiftLeft_eq]
  omega

/-- Settles O22: E lies between 0 and 2^EW - 1, and X follows e by the equation of the shift. -/
theorem rebasedExponentMatchesTheShift : Obligations.RebasedExponentMatchesTheShift := by
  refine ⟨fun e => ⟨four_mul_rebase e, remainderShift_le e⟩, fun a => ?_, fun a => ?_⟩
  · have hE := ieeeExp_lt .w32 a
    rw [ew_w32] at hE
    rw [rebase_eq, encExponent, bias_w32]
    omega
  · have hE := ieeeExp_lt .w64 a
    rw [ew_w64] at hE
    rw [rebase_eq, encExponent, bias_w64]
    omega

/-- Settles O23: f lies below the implicit bit, so setting that bit adds it. -/
theorem significandHasItsImplicitBit : Obligations.SignificandHasItsImplicitBit := fun w E f hf =>
  ⟨fun hE => significand_of_ne_zero w hE hf, fun hE => hE ▸ significand_zero w f,
    significand_lt w E hf⟩

/-- Settles O24: the alignment shift takes the implicit bit to the top bit of the field. -/
theorem alignedSignificandFillsTheHexField : Obligations.AlignedSignificandFillsTheHexField := by
  refine ⟨align_w32, align_w64, fun w E f hf => ?_⟩
  have hlt := alignToHex_lt w (significand_lt w E hf)
  refine ⟨alignToHex_eq_mul w _, hlt, fun hE => ?_⟩
  rw [← Bool.not_eq_false, topBit_eq_false_iff w _ hlt, not_lt]
  exact two_pow_le_alignToHex w hE hf

/-- Settles O25: the loop meets its closed form, of which the other clauses speak; with E = 0, X starts at
the rebased exponent of e = -BIAS. -/
theorem renormalizationMeetsItsClosedForm : Obligations.RenormalizationMeetsItsClosedForm := by
  refine ⟨fun w M X hM => ?loop, fun w a hE => encNormalized_of_ne_zero hE, fun a hE => ?single,
    fun a hE => ?double⟩
  case loop =>
    rw [renormalize_eq_closed w M X hM]
    refine ⟨rfl, ?_, renormalizeClosed_fst_lt w M X hM,
      topNibble_renormalizeClosed_ne_zero w X hM⟩
    simp only [renormalizeClosed, Nat.shiftLeft_eq, pow_mul, Nat.reducePow]
  case single =>
    have hk := four_mul_renormalizeRounds_lt .w32 (encMantissa_lt .w32 a)
    have hX : rebase (encExponent .w32 a) = 33 := by rw [encExponent, hE]; rfl
    rw [hw_w32] at hk
    exact ⟨encMantissa_w32_of_zero hE, by omega, hX ▸ encNormalized_of_zero hE⟩
  case double =>
    have hk := four_mul_renormalizeRounds_lt .w64 (encMantissa_lt .w64 a)
    have hX : rebase (encExponent .w64 a) = -191 := by rw [encExponent, hE]; rfl
    rw [hw_w64] at hk
    exact ⟨encMantissa_w64_of_zero hE, by omega, hX ▸ encNormalized_of_zero hE⟩

/-- Settles O33: E = 762 and E = 1274 are the last exponents before the two boundaries of X. -/
theorem doubleEncodeUnderflowExactlyTo762 : Obligations.DoubleEncodeUnderflowExactlyTo762 := by
  intro a _
  obtain ⟨hgt, hneg⟩ := encNormalized_snd_w64 a
  exact ⟨hneg, by omega⟩

/-- Settles O35: a remainder shift of at most 3 leaves the implicit bit in the top nibble, and with E = 0
renormalization brings the leading bit there. -/
theorem encodedMantissaIsHexNormalized : Obligations.EncodedMantissaIsHexNormalized := fun _ _ =>
  ⟨fun hE => hexNormalized_encNormalized (.inl hE),
    fun _ hM => hexNormalized_encNormalized (.inr hM)⟩

end Sys2Proof.Machine
end

section
/-! PROOFS, the family 40_encode: what the encode operations answer (40_encode.md R101, R108-R115). -/

namespace Sys2Proof.Machine

/-- ENC32 delivers a result zero-extended (R111). -/
theorem exec_ieeeSingleToHex_of_ok {s : State} {a v : BitVec 32} (h : enc s.config .w32 a = .ok v) :
    exec (.ieeeSingleToHex a) s =
      .next { s with responses := s.responses ++ [.ok (0#32 ++ v)] } := by
  rw [exec_eq_deliver, answer, h]
  rfl

/-- ENC64 delivers what ENC answers (R112). -/
theorem exec_ieeeDoubleToHex_of_eq {s : State} {a : BitVec 64} {r : Response}
    (h : enc s.config .w64 a = r) :
    exec (.ieeeDoubleToHex a) s = .next { s with responses := s.responses ++ [r] } := by
  rw [exec_eq_deliver, answer, h]
  rfl

/-- A negative exponent gives the zero of the build (R109). -/
theorem enc_eq_underflowZero (c : Config) {w : Width} {a : Word w} (hn : nonSign w a ≠ 0)
    (hX : (encNormalized w a).2 < 0) : enc c w a = .ok (underflowZero c w (signBit w a)) := by
  rcases enc_cases c w a with ⟨h0, -⟩ | ⟨-, hgt, -⟩ | ⟨-, -, hr⟩ | ⟨-, hge, -, -⟩
  · exact absurd h0 hn
  · omega
  · exact hr
  · omega

/-- The three fields of an assembled result (R110). -/
theorem exists_enc_eq_ok_fields (c : Config) {w : Width} {a : Word w} (hn : nonSign w a ≠ 0)
    (h0 : 0 ≤ (encNormalized w a).2) (h127 : (encNormalized w a).2 ≤ 127) :
    ∃ h, enc c w a = .ok h ∧ signBit w h = signBit w a ∧
      (hexExp w h : Int) = (encNormalized w a).2 ∧ hexMant w h = (encNormalized w a).1 := by
  have hM := encNormalized_fst_lt w a
  refine ⟨_, enc_eq_assembleHex c hn h0 h127, signBit_assembleHex .., ?_, ?_⟩ <;>
    lift (encNormalized w a).2 to Nat using h0 with X
  · rw [hexExp_assembleHex w _ X _ (by omega)]
  · rw [hexMant_assembleHex w _ X _ (by omega), Nat.mod_eq_of_lt hM]

/-- The fields of the result for E ≠ 0, where no renormalization runs. -/
theorem exists_enc_eq_ok_fields_of_ieeeExp (c : Config) {w : Width} {a : Word w}
    (hE : ieeeExp w a ≠ 0) (h0 : 0 ≤ (encNormalized w a).2) (h127 : (encNormalized w a).2 ≤ 127) :
    ∃ h, enc c w a = .ok h ∧ signBit w h = signBit w a ∧
      (hexExp w h : Int) = 64 - (w.bias - ieeeExp w a) / 4 ∧ hexMant w h = encMantissa w a := by
  have hfields := exists_enc_eq_ok_fields c (nonSign_ne_zero_of_ieeeExp hE) h0 h127
  rwa [encNormalized_of_ne_zero hE, rebase_eq, encExponent, neg_sub] at hfields

/-- Settles O21: the zero bypass comes first. -/
theorem encodeReturnsZerosUnchanged : Obligations.EncodeReturnsZerosUnchanged := fun s =>
  ⟨fun _ h => exec_ieeeSingleToHex_of_ok
      (enc_of_nonSign_eq_zero s.config (w := .w32) (congrArg BitVec.toNat h)),
    fun _ h => exec_ieeeDoubleToHex_of_eq
      (enc_of_nonSign_eq_zero s.config (w := .w64) (congrArg BitVec.toNat h))⟩

/-- Settles O26: RangeError is the outcome of exactly the exponents above 127. -/
theorem encodeOverflowRaisesRangeError : Obligations.EncodeOverflowRaisesRangeError := by
  have hover (c : Config) (w : Width) (a : Word w) (hn : nonSign w a ≠ 0)
      (hX : (encNormalized w a).2 > 127) : enc c w a = .rangeError :=
    (enc_eq_rangeError_iff c w a hn).2 hX
  exact ⟨fun s a hn hX => exec_ieeeDoubleToHex_of_eq (hover s.config .w64 a hn hX), hover,
    rfl, rfl, rfl⟩

/-- Settles O27: X < 0 gives the zero of the build; X = 0 needs E ≠ 0, where the mantissa is
hex-normalized. -/
theorem encodeUnderflowReturnsZero : Obligations.EncodeUnderflowReturnsZero := by
  intro s a hn
  refine ⟨fun hX hb => ?signed, fun hX hb => ?unsigned, fun hX => ?zero⟩
  case signed =>
    have henc := enc_eq_underflowZero s.config hn hX
    rw [underflowZero_signed _ _ _ hb] at henc
    exact exec_ieeeDoubleToHex_of_eq henc
  case unsigned =>
    have henc := enc_eq_underflowZero s.config hn hX
    rw [underflowZero_unsigned _ _ _ hb] at henc
    exact exec_ieeeDoubleToHex_of_eq henc
  case zero =>
    have hE : ieeeExp .w64 a ≠ 0 := by
      have hneg := (encNormalized_snd_w64 a).2
      omega
    obtain ⟨v, hok, -, hexp, hmant⟩ := exists_enc_eq_ok_fields s.config hn (by omega) (by omega)
    refine ⟨v, by omega, hmant, ?_, exec_ieeeDoubleToHex_of_eq hok⟩
    rw [hmant]
    exact ne_zero_of_hexNormalized (hexNormalized_encNormalized (.inl hE))

/-- Settles O28: the fields of the assembled word at both widths. -/
theorem encodeAssemblesSignExponentMantissa : Obligations.EncodeAssemblesSignExponentMantissa := by
  intro s
  constructor
  · intro a hn h0 h127
    obtain ⟨h, hok, hsign, hexp, hmant⟩ := exists_enc_eq_ok_fields s.config hn h0 h127
    exact ⟨h, hsign, hexp, hmant, exec_ieeeSingleToHex_of_ok hok⟩
  · intro a hn h0 h127
    obtain ⟨h, hok, hsign, hexp, hmant⟩ := exists_enc_eq_ok_fields s.config hn h0 h127
    exact ⟨h, hsign, hexp, hmant, exec_ieeeDoubleToHex_of_eq hok⟩

/-- Settles O29: X is within its field for every 32-bit operand, and M is the significand shifted by the
remainder shift. -/
theorem singleEncodeOfNormalOperands : Obligations.SingleEncodeOfNormalOperands := by
  intro s a hE
  obtain ⟨hlo, hhi⟩ := encNormalized_snd_w32 a
  obtain ⟨h, hok, hsign, hexp, hmant⟩ :=
    exists_enc_eq_ok_fields_of_ieeeExp s.config hE (by omega) (by omega)
  refine ⟨h, hsign, hexp, ?_, exec_ieeeSingleToHex_of_ok hok⟩
  rw [hmant, encMantissa_w32, significand_of_ne_zero .w32 hE (ieeeFrac_lt .w32 a),
    remainderShift_eq, encExponent, neg_sub]
  rfl

/-- Settles O30: these operands have X within its field, and the remainder shift discards alignment zeros
only. -/
theorem doubleEncodeOfInRangeOperands : Obligations.DoubleEncodeOfInRangeOperands := by
  intro s a hlo hhi
  have hE : ieeeExp .w64 a ≠ 0 := by omega
  obtain ⟨hgt, hneg⟩ := encNormalized_snd_w64 a
  obtain ⟨h, hok, hsign, hexp, hmant⟩ :=
    exists_enc_eq_ok_fields_of_ieeeExp s.config hE (by omega) (by omega)
  refine ⟨h, hsign, hexp, ?_, exec_ieeeDoubleToHex_of_eq hok⟩
  have hM := encMantissa_mul_two_pow_w64 a
  rw [significand_of_ne_zero .w64 hE (ieeeFrac_lt .w64 a), remainderShift_eq, encExponent,
    neg_sub, Nat.mul_comm 8] at hM
  rw [hmant]
  exact hM

/-- Settles O31: f = 2 and f = 3 enter the loop of R107 as M = 1, which takes five rounds from X = 33. -/
theorem singleEncodeNeverFails : Obligations.SingleEncodeNeverFails := by
  refine ⟨encNormalized_snd_w32, fun a hE hf => ?low, fun a hE => ?high, fun s a => ?ok⟩
  case low =>
    have hM : encMantissa .w32 a = 1 := by
      rw [encMantissa_w32_of_zero hE, Nat.shiftRight_eq_div_pow]
      omega
    rw [encNormalized_of_zero hE, hM, encExponent, hE]
    rfl
  case high =>
    rw [encNormalized_of_ne_zero (by omega), encExponent, hE]
    rfl
  case ok =>
    obtain ⟨v, hv⟩ := exists_enc_w32_eq_ok s.config a
    exact ⟨v, exec_ieeeSingleToHex_of_ok hv⟩

/-- Settles O32: the operation delivers RangeError exactly when ENC answers it. -/
theorem doubleEncodeRangeErrorExactlyFrom1275 :
    Obligations.DoubleEncodeRangeErrorExactlyFrom1275 := by
  intro s a
  rw [exec_ieeeDoubleToHex_of_eq rfl, ← enc_w64_eq_rangeError_iff s.config a]
  simp

/-- Settles O36: E = 255 is a normal exponent with X = 97 and a remainder shift of 3, and E = 2047 lies
above 1274. -/
theorem encodeHasNoInfinityOrNaNPath : Obligations.EncodeHasNoInfinityOrNaNPath := by
  intro s
  constructor
  · intro a h
    have hE : ieeeExp .w32 a = 255 := congrArg BitVec.toNat h
    have hE0 : ieeeExp .w32 a ≠ 0 := by omega
    have he : encExponent .w32 a = 129 := by rw [encExponent, hE]; rfl
    have hX : (encNormalized .w32 a).2 = 97 := by
      rw [encNormalized_of_ne_zero hE0, he]
      rfl
    have hM : (encNormalized .w32 a).1 = (2 ^ 23 + ieeeFrac .w32 a) / 8 := by
      rw [encNormalized_of_ne_zero hE0, encMantissa_w32,
        significand_of_ne_zero .w32 hE0 (ieeeFrac_lt .w32 a), he]
      rfl
    have henc := enc_eq_assembleHex s.config (nonSign_ne_zero_of_ieeeExp hE0) (by omega) (by omega)
    rw [hX, hM] at henc
    exact exec_ieeeSingleToHex_of_ok henc
  · intro a h
    have hE : ieeeExp .w64 a = 2047 := congrArg BitVec.toNat h
    exact exec_ieeeDoubleToHex_of_eq ((enc_w64_eq_rangeError_iff s.config a).2 (by omega))

end Sys2Proof.Machine
end

section
/-! PROOFS, the family 40_encode: encode and the sign bit (40_encode.md R117). -/

namespace Sys2Proof.Machine

/-- No step before assembly reads the sign. -/
@[simp] theorem encNormalized_xor_signMask (w : Width) (a : Word w) :
    encNormalized w (a ^^^ signMask w) = encNormalized w a := by
  simp [encNormalized, encMantissa, encExponent]

theorem signedZero_not (w : Width) (s : Bool) :
    signedZero w (!s) = signedZero w s ^^^ signMask w :=
  word_ext (by simp) (by simp)

theorem assembleHex_not (w : Width) (s : Bool) {X : Int} (M : Nat) (h0 : 0 ≤ X) (h127 : X ≤ 127) :
    assembleHex w (!s) X M = assembleHex w s X M ^^^ signMask w := by
  lift X to Nat using h0
  have hX : X < 128 := by omega
  exact word_ext (by simp) (by
    simp [nonSign_eq_hex, hexExp_assembleHex w _ X M hX, hexMant_assembleHex w _ X M hX])

/-- Settles O39: both operands have one X and one M, so they end alike, and the word each delivers is put
together from its own sign; the zero of an UNSIGNED build has none. -/
theorem encodeSignSymmetry : Obligations.EncodeSignSymmetry := by
  intro c w a hn
  have hn' : nonSign w (a ^^^ signMask w) ≠ 0 := by rwa [nonSign_xor_signMask]
  refine ⟨fun hb => ?flip, fun hb hX => ?zeros⟩
  case flip =>
    rcases enc_cases c w a with ⟨h0, -⟩ | ⟨-, hX, hr⟩ | ⟨-, hX, hr⟩ | ⟨-, h0, h127, hr⟩
    · exact absurd h0 hn
    · exact .inl ⟨hr, (enc_eq_rangeError_iff c w _ hn').2 (by simpa using hX)⟩
    · have hsigned : c.encUnderflowZero = .signed := hb.resolve_right (not_le.2 hX)
      refine .inr ⟨_, hr, ?_⟩
      rw [enc_eq_underflowZero c hn' (by simpa using hX), underflowZero_signed _ _ _ hsigned,
        underflowZero_signed _ _ _ hsigned, signBit_xor_signMask, signedZero_not]
    · refine .inr ⟨_, hr, ?_⟩
      rw [enc_eq_assembleHex c hn' (by simpa using h0) (by simpa using h127),
        encNormalized_xor_signMask, signBit_xor_signMask, assembleHex_not w _ _ h0 h127]
  case zeros =>
    constructor
    · rw [enc_eq_underflowZero c hn hX, underflowZero_unsigned _ _ _ hb]
    · rw [enc_eq_underflowZero c hn' (by simpa using hX), underflowZero_unsigned _ _ _ hb]

end Sys2Proof.Machine
end

section
/-! PROOFS, the family 41_decode: the steps of decode before assembly (41_decode.md R143-R146). -/

namespace Sys2Proof.Machine

/-- R143 with the widths of R69 and R70: X is a 7-bit field. -/
theorem decExponent_bounds (w : Width) (h : Word w) :
    -256 ≤ decExponent w h ∧ decExponent w h ≤ 252 := by
  have hX := hexExp_lt w h
  rw [decExponent, hexBias]
  omega

/-- Every round of R144 lowers e. -/
theorem decNormalized_snd_eq (w : Width) (h : Word w) : (decNormalized w h).2 =
    decExponent w h - leftNormalizeRounds w (hexMant w h) (decExponent w h) := by
  rw [decNormalized_eq_closed, leftNormalizeClosed]

theorem decNormalized_fst_eq (w : Width) (h : Word w) : (decNormalized w h).1 =
    hexMant w h * 2 ^ leftNormalizeRounds w (hexMant w h) (decExponent w h) := by
  rw [decNormalized_eq_closed, leftNormalizeClosed, Nat.shiftLeft_eq]

/-- A zero mantissa never gets its top bit set, so the loop of R144 runs down to EMIN. -/
theorem decNormalized_of_hexMant_eq_zero {w : Width} {h : Word w} (hM : hexMant w h = 0) :
    (decNormalized w h).1 = 0 ∧ (decNormalized w h).2 ≤ w.emin := by
  rw [decNormalized_fst_eq, decNormalized_snd_eq, hM, leftNormalizeRounds, if_pos rfl]
  omega

/-- Denormalization ends at EMIN and leaves what is above it (R145). -/
theorem decDenormalized_snd_eq (w : Width) (h : Word w) :
    (decDenormalized w h).2 = max (decNormalized w h).2 w.emin := by
  rw [decDenormalized]
  rcases le_or_gt (decNormalized w h).2 w.emin with he | he
  · rw [denormalize_of_le _ he, max_eq_right he, denormalizeClosed]
  · rw [denormalize_of_gt _ he, max_eq_left he.le]

/-- At or below EMIN, R145 and R146 together are one right shift. -/
theorem dropAlignment_denormalize {w : Width} (M : Nat) {e : Int} (he : e ≤ w.emin) :
    dropAlignment w (denormalize w M e).1 = M / 2 ^ (denormalizeShift w e + w.align) := by
  rw [denormalize_of_le M he, dropAlignment, denormalizeClosed, ← Nat.shiftRight_add,
    Nat.shiftRight_eq_div_pow]

/-- Settles O41: X lies in [0, 127]. -/
theorem decodeExponentRange : Obligations.DecodeExponentRange := fun w h =>
  ⟨rfl, decExponent_bounds w h⟩

/-- Settles O42: the loop meets its closed form, which keeps every bit and which has set the top bit when it
ends above EMIN. -/
theorem leftNormalizationMeetsItsClosedForm : Obligations.LeftNormalizationMeetsItsClosedForm := by
  intro w M e hM
  have hlt := leftNormalizeClosed_fst_lt w M e hM
  rw [leftNormalize_eq_closed w M e hM]
  refine ⟨rfl, Nat.shiftLeft_eq _ _, hlt, ?_⟩
  rw [or_iff_not_imp_right, not_le, ← Bool.not_eq_false, topBit_eq_false_iff w _ hlt, not_lt]
  exact two_pow_le_leftNormalizeClosed_fst w M e hM

/-- Settles O43: a shift by HW or more leaves nothing of a mantissa below 2^HW. -/
theorem denormalizationMeetsItsClosedForm : Obligations.DenormalizationMeetsItsClosedForm := by
  refine fun w M e => ⟨denormalize_of_le M, fun he hM hsh => ?_, denormalize_of_gt M⟩
  rw [denormalize_of_le M he, denormalizeClosed, Nat.shiftRight_eq_div_pow]
  exact Nat.div_eq_of_lt (hM.trans_le (Nat.pow_le_pow_right two_pos hsh))

end Sys2Proof.Machine
end

section
/-! PROOFS, the family 41_decode: what DEC answers on every operand, by e_n (41_decode.md R147-R149). -/

namespace Sys2Proof.Machine

/-- The zero bypass of decode (R141). -/
theorem dec_of_nonSign_eq_zero {w : Width} {h : Word w} (hn : nonSign w h = 0) : dec w h = .ok h :=
  if_pos hn

theorem two_le_two_pow_ew (w : Width) : 2 ≤ 2 ^ w.ew := by
  cases w <;> decide

theorem emin_lt_emax (w : Width) : w.emin < w.emax := by
  cases w <;> decide

/-- A nonzero mantissa keeps an operand from the zero bypass (R141). -/
theorem nonSign_ne_zero_of_hexMant {w : Width} {h : Word w} (hM : hexMant w h ≠ 0) :
    nonSign w h ≠ 0 := by
  rw [nonSign_eq_hex]
  omega

/-- Only a nonzero mantissa ends above EMIN. -/
theorem nonSign_ne_zero_of_emin_lt {w : Width} {h : Word w} (he : w.emin < (decNormalized w h).2) :
    nonSign w h ≠ 0 :=
  nonSign_ne_zero_of_hexMant fun hM => absurd (decNormalized_of_hexMant_eq_zero hM).2 (not_le.2 he)

/-- e_n below EMIN - MW underflows (R147). -/
theorem dec_eq_signedZero {w : Width} {h : Word w} (hn : nonSign w h ≠ 0)
    (he : (decNormalized w h).2 < w.emin - w.mw) : dec w h = .ok (signedZero w (signBit w h)) := by
  rw [dec, if_neg hn, if_pos he]

/-- e_n above EMAX overflows (R148). -/
theorem dec_eq_infinity {w : Width} {h : Word w} (he : w.emax < (decNormalized w h).2) :
    dec w h = .ok (infinity w (signBit w h)) := by
  have hmin := (emin_lt_emax w).trans he
  rw [dec, if_neg (nonSign_ne_zero_of_emin_lt hmin), if_neg (by omega), if_pos he]

/-- The steps before assembly leave nothing of a zero mantissa or of an underflowing one (R147, R152). -/
theorem dropAlignment_decDenormalized_eq_zero {w : Width} {h : Word w}
    (hz : hexMant w h = 0 ∨ (decNormalized w h).2 < w.emin - w.mw) :
    dropAlignment w (decDenormalized w h).1 = 0 := by
  rcases hz with hM | he
  · rw [dropAlignment_decDenormalized, (decNormalized_of_hexMant_eq_zero hM).1, Nat.zero_div]
  · have hlt := dropAlignment_decDenormalized_lt w h
    rw [show w.mw + 1 - (w.emin + 1 - (decNormalized w h).2).toNat = 0 by omega] at hlt
    exact Nat.lt_one_iff.1 hlt

/-- A zero mantissa or an underflowing one assembles to the signed zero (R147, R152). -/
theorem assembleIeee_eq_signedZero {w : Width} {h : Word w}
    (hz : hexMant w h = 0 ∨ (decNormalized w h).2 < w.emin - w.mw) (s : Bool) :
    assembleIeee w s ((decDenormalized w h).2 + w.bias)
      (dropAlignment w (decDenormalized w h).1) = signedZero w s := by
  have he : (decNormalized w h).2 ≤ w.emin := hz.elim
    (fun hM => (decNormalized_of_hexMant_eq_zero hM).2) (fun _ => by omega)
  rw [dropAlignment_decDenormalized_eq_zero hz, decDenormalized_snd_eq, max_eq_right he,
    Width.emin, neg_add_cancel, signedZero_eq_assembleIeee]

/-- Up to EMAX every operand is answered by assembly: the zero bypass and the underflow check give what
the other steps would. -/
theorem dec_eq_assembleIeee {w : Width} {h : Word w} (hmax : (decNormalized w h).2 ≤ w.emax) :
    dec w h = .ok (assembleIeee w (signBit w h) ((decDenormalized w h).2 + w.bias)
      (dropAlignment w (decDenormalized w h).1)) := by
  rcases dec_cases w h with ⟨h0, hr⟩ | ⟨-, he, hr⟩ | ⟨-, -, hgt, -⟩ | ⟨-, -, -, hr⟩
  · have hM : hexMant w h = 0 := by
      rw [nonSign_eq_hex] at h0
      omega
    rw [hr, assembleIeee_eq_signedZero (.inl hM), ← eq_signedZero_of_nonSign w h h0]
  · rw [hr, assembleIeee_eq_signedZero (.inr he)]
  · exact absurd hmax (not_le.2 hgt)
  · exact hr

/-- The fields of a result for e_n above EMIN (R149, "normal"). -/
theorem exists_dec_eq_ok_normal {w : Width} {h : Word w} (he : w.emin < (decNormalized w h).2)
    (hmax : (decNormalized w h).2 ≤ w.emax) :
    ∃ a, dec w h = .ok a ∧ signBit w a = signBit w h ∧
      (ieeeExp w a : Int) = (decNormalized w h).2 + w.bias ∧
      2 ^ w.mw + ieeeFrac w a = dropAlignment w (decDenormalized w h).1 := by
  refine ⟨_, dec_eq_assembleIeee hmax, signBit_assembleIeee .., ?_⟩
  have hlo := two_pow_le_dropAlignment_decDenormalized he
  have hhi := dropAlignment_decDenormalized_lt w h
  rw [Int.toNat_of_nonpos (by omega), Nat.sub_zero] at hhi
  rw [decDenormalized_snd_eq, max_eq_left he.le]
  rw [Width.emin] at he
  rw [Width.emax] at hmax
  obtain ⟨E, hE⟩ := Int.eq_ofNat_of_zero_le (show 0 ≤ (decNormalized w h).2 + w.bias by omega)
  have hlt : E < 2 ^ w.ew := by
    zify
    omega
  rw [hE, ieeeExp_assembleIeee w _ E _ hlt, ieeeFrac_assembleIeee w _ E _ hlt,
    Nat.mod_eq_sub_mod hlo, Nat.mod_eq_of_lt (by omega)]
  exact ⟨rfl, by omega⟩

/-- The fields of a result for e_n at or below EMIN (R149, "subnormal"; R147 and R152 for what is left of
nothing). -/
theorem exists_dec_eq_ok_subnormal {w : Width} {h : Word w} (he : (decNormalized w h).2 ≤ w.emin) :
    ∃ a, dec w h = .ok a ∧ signBit w a = signBit w h ∧ ieeeExp w a = 0 ∧
      ieeeFrac w a = dropAlignment w (decDenormalized w h).1 := by
  refine ⟨_, dec_eq_assembleIeee (he.trans (emin_lt_emax w).le), signBit_assembleIeee .., ?_⟩
  have hm : dropAlignment w (decDenormalized w h).1 < 2 ^ w.mw :=
    (dropAlignment_decDenormalized_lt w h).trans_le (Nat.pow_le_pow_right two_pos (by omega))
  have hE : (decDenormalized w h).2 + w.bias = ((0 : Nat) : Int) := by
    rw [decDenormalized_snd_eq, max_eq_right he, Width.emin, neg_add_cancel, Nat.cast_zero]
  rw [hE, ieeeExp_assembleIeee w _ 0 _ (by positivity), ieeeFrac_assembleIeee w _ 0 _ (by positivity),
    Nat.mod_eq_of_lt hm]
  exact ⟨rfl, rfl⟩

theorem ieeeFrac_infinity (w : Width) (s : Bool) : ieeeFrac w (infinity w s) = 0 := by
  cases w <;> cases s <;> rfl

theorem ieeeExp_infinity (w : Width) (s : Bool) : ieeeExp w (infinity w s) = 2 ^ w.ew - 1 := by
  cases w <;> cases s <;> rfl

/-- Decode never gives a NaN: above EMAX the fraction is zero, and up to EMAX the exponent field is not all
ones. -/
theorem exists_dec_eq_ok_not_nan (w : Width) (h : Word w) :
    ∃ a, dec w h = .ok a ∧ ¬(ieeeExp w a = 2 ^ w.ew - 1 ∧ ieeeFrac w a ≠ 0) := by
  have hew := two_le_two_pow_ew w
  rcases lt_or_ge w.emax (decNormalized w h).2 with hgt | hmax
  · exact ⟨_, dec_eq_infinity hgt, fun hnan => hnan.2 (ieeeFrac_infinity w _)⟩
  rcases lt_or_ge w.emin (decNormalized w h).2 with he | he
  · obtain ⟨a, hok, -, hE, -⟩ := exists_dec_eq_ok_normal he hmax
    rw [Width.emax] at hmax
    refine ⟨a, hok, fun ⟨hnan, _⟩ => ?_⟩
    zify [one_le_two.trans hew] at hnan
    omega
  · obtain ⟨a, hok, -, hE, -⟩ := exists_dec_eq_ok_subnormal he
    exact ⟨a, hok, fun ⟨hnan, _⟩ => by omega⟩

end Sys2Proof.Machine
end

section
/-! PROOFS, the family 41_decode: what the decode operations answer (41_decode.md R141, R147-R153). -/

namespace Sys2Proof.Machine

/-- DEC32 delivers a result zero-extended (R150). -/
theorem exec_hexToIeeeSingle_of_ok {s : State} {h v : BitVec 32} (hok : dec .w32 h = .ok v) :
    exec (.hexToIeeeSingle h) s =
      .next { s with responses := s.responses ++ [.ok (0#32 ++ v)] } := by
  rw [exec_eq_deliver, answer, hok]
  rfl

/-- DEC64 delivers a result as it is (R151). -/
theorem exec_hexToIeeeDouble_of_ok {s : State} {h v : BitVec 64} (hok : dec .w64 h = .ok v) :
    exec (.hexToIeeeDouble h) s = .next { s with responses := s.responses ++ [.ok v] } := by
  rw [exec_eq_deliver, answer, hok]
  rfl

theorem dec_of_hexMant_eq_zero {w : Width} {h : Word w} (hM : hexMant w h = 0) :
    dec w h = .ok (signedZero w (signBit w h)) := by
  have he := (decNormalized_of_hexMant_eq_zero hM).2
  rw [dec_eq_assembleIeee (he.trans (emin_lt_emax w).le), assembleIeee_eq_signedZero (.inl hM)]

/-- Above EMIN the whole normalized mantissa but for the alignment bits is kept (R146). -/
theorem dropAlignment_decDenormalized_of_emin_lt {w : Width} {h : Word w}
    (he : w.emin < (decNormalized w h).2) :
    dropAlignment w (decDenormalized w h).1 = (decNormalized w h).1 / 2 ^ w.align := by
  rw [dropAlignment_decDenormalized, decLostBits, Int.toNat_of_nonpos (by omega), Nat.add_zero]

/-- Above EMIN the loop of R144 has run over all leading zeros, no more and no fewer. -/
theorem leftNormalizeRounds_of_emin_lt {w : Width} {h : Word w}
    (he : w.emin < (decNormalized w h).2) :
    leftNormalizeRounds w (hexMant w h) (decExponent w h) = lzc w.hw (hexMant w h) := by
  have h0 : hexMant w h ≠ 0 := fun hM =>
    absurd (decNormalized_of_hexMant_eq_zero hM).2 (not_le.2 he)
  rw [decNormalized_snd_eq, leftNormalizeRounds, if_neg h0] at he
  rw [leftNormalizeRounds, if_neg h0]
  split_ifs at he ⊢ <;> omega

/-- Settles O40: the zero bypass comes first. -/
theorem decodeReturnsZerosUnchanged : Obligations.DecodeReturnsZerosUnchanged := fun _ =>
  ⟨fun _ hz => exec_hexToIeeeSingle_of_ok
      (dec_of_nonSign_eq_zero (w := .w32) (congrArg BitVec.toNat hz)),
    fun _ hz => exec_hexToIeeeDouble_of_ok
      (dec_of_nonSign_eq_zero (w := .w64) (congrArg BitVec.toNat hz))⟩

/-- Settles O44: the check answers the signed zero; without it, the shift of R145 exceeds the MW + 1 bits
that the alignment drop leaves. -/
theorem decodeUnderflowReturnsSignedZero : Obligations.DecodeUnderflowReturnsSignedZero := by
  refine ⟨fun s h hn he => exec_hexToIeeeSingle_of_ok (dec_eq_signedZero hn he),
    fun w h hn he => dec_eq_signedZero hn he, fun w M e hM he => ⟨?_, ?_⟩⟩
  · rw [dropAlignment_denormalize M (by omega)]
    refine Nat.div_eq_of_lt (hM.trans_le (Nat.pow_le_pow_right two_pos ?_))
    rw [hw_eq, denormalizeShift]
    omega
  · rw [denormalize_of_le M (by omega), denormalizeClosed, Width.emin, neg_add_cancel]

/-- Settles O45: the check answers the infinity; for W = 64, e starts at most at 252 and only falls. -/
theorem decodeOverflowReturnsInfinity : Obligations.DecodeOverflowReturnsInfinity := by
  refine ⟨fun s h _ he => ?single, fun w h _ he => dec_eq_infinity he, fun h => ?bound⟩
  case single =>
    have hinf : infinity .w32 (signBit .w32 h) = BitVec.ofBool (h.getLsbD 31) ++ 0x7F800000#31 := by
      cases hs : signBit .w32 h <;> rw [show h.getLsbD 31 = _ from hs] <;> rfl
    rw [exec_hexToIeeeSingle_of_ok (dec_eq_infinity he), hinf]
  case bound =>
    have hle := (decExponent_bounds .w64 h).2
    rw [decNormalized_snd_eq]
    omega

/-- Settles O46: the fields of the assembled word on either side of EMIN. -/
theorem decodeAssemblesSignExponentFraction : Obligations.DecodeAssemblesSignExponentFraction := by
  intro w h _ _ hmax
  rw [decDenormalized_snd_eq]
  rcases lt_or_ge w.emin (decNormalized w h).2 with he | he
  · obtain ⟨a, hok, hsign, hE, hf⟩ := exists_dec_eq_ok_normal he hmax
    refine ⟨a, hok, hsign, fun _ => ⟨?_, ?_, hE, hf⟩, fun hle => by omega⟩
    · rw [Width.emin] at he
      omega
    · have hew := two_le_two_pow_ew w
      rw [Width.emax] at hmax
      zify [hew]
      omega
  · obtain ⟨a, hok, hsign, hE, hf⟩ := exists_dec_eq_ok_subnormal he
    exact ⟨a, hok, hsign, fun hlt => by omega, fun _ => ⟨max_eq_right he, hE, hf⟩⟩

/-- Settles O47: `exists_dec_eq_ok_not_nan` at both widths. -/
theorem decodeNeverFailsNorGivesNaN : Obligations.DecodeNeverFailsNorGivesNaN := by
  intro s
  constructor
  · intro h
    obtain ⟨a, hok, hnan⟩ := exists_dec_eq_ok_not_nan .w32 h
    exact ⟨a, hnan, exec_hexToIeeeSingle_of_ok hok⟩
  · intro h
    obtain ⟨a, hok, hnan⟩ := exists_dec_eq_ok_not_nan .w64 h
    exact ⟨a, hnan, exec_hexToIeeeDouble_of_ok hok⟩

/-- Settles O48: with e at least -256 and fewer than 56 leading zeros, left normalization never comes near
EMIN = -1022. -/
theorem doubleDecodeOfNonzeroMantissas : Obligations.DoubleDecodeOfNonzeroMantissas := by
  intro s h h0
  obtain ⟨hlo, hhi⟩ := decExponent_bounds .w64 h
  have hlz : lzc 56 (hexMant .w64 h) < 56 := (lzc_bounds 56 _ h0 (hexMant_lt .w64 h)).2.2
  have hle := leftNormalizeRounds_le_lzc .w64 (decExponent .w64 h) h0
  have hsnd := decNormalized_snd_eq .w64 h
  rw [hw_w64] at hle
  have he : Width.emin .w64 < (decNormalized .w64 h).2 := by rw [emin_w64]; omega
  have hL := leftNormalizeRounds_of_emin_lt he
  rw [hL, hw_w64] at hsnd
  obtain ⟨a, hok, hsign, hE, hf⟩ := exists_dec_eq_ok_normal he (by rw [emax_w64]; omega)
  rw [dropAlignment_decDenormalized_of_emin_lt he, decNormalized_fst_eq, hL, hw_w64] at hf
  exact ⟨a, hsnd, by omega, by omega, hsign, hE, hf, exec_hexToIeeeDouble_of_ok hok⟩

/-- Settles O49: the fields of the result in each of the three ranges that EMIN and EMAX bound; below
EMIN - MW nothing is left of the mantissa. -/
theorem singleDecodeOutcomesByExponent : Obligations.SingleDecodeOutcomesByExponent := by
  intro s h _
  rcases lt_or_ge 128 (decNormalized .w32 h).2 with hgt | hmax
  · exact ⟨_, signBit_infinity .., exec_hexToIeeeSingle_of_ok (dec_eq_infinity hgt),
      fun _ => ⟨ieeeExp_infinity .., ieeeFrac_infinity ..⟩, by omega, by omega, by omega⟩
  rcases lt_or_ge (-126) (decNormalized .w32 h).2 with he | he
  · obtain ⟨a, hok, hsign, hE, hf⟩ := exists_dec_eq_ok_normal (w := .w32) he hmax
    rw [dropAlignment_decDenormalized_of_emin_lt he, decNormalized_fst_eq,
      leftNormalizeRounds_of_emin_lt he, align_w32, pow_zero, Nat.div_one] at hf
    exact ⟨a, hsign, exec_hexToIeeeSingle_of_ok hok, by omega, fun _ _ => ⟨hE, hf⟩, by omega,
      by omega⟩
  · obtain ⟨a, hok, hsign, hE, hf⟩ := exists_dec_eq_ok_subnormal (w := .w32) he
    refine ⟨a, hsign, exec_hexToIeeeSingle_of_ok hok, by omega, by omega,
      fun _ _ => ⟨hE, ?_⟩, fun hlt => ⟨hE, ?_⟩⟩
    · rw [hf, decDenormalized, dropAlignment_denormalize _ he]
      rfl
    · rw [hf, dropAlignment_decDenormalized_eq_zero (.inr hlt)]

/-- Settles O50: a zero mantissa stays zero through every step, and its exponent falls to EMIN. -/
theorem decodeOfZeroMantissaIsSignedZero : Obligations.DecodeOfZeroMantissaIsSignedZero := fun _ =>
  ⟨fun _ hM => exec_hexToIeeeSingle_of_ok (dec_of_hexMant_eq_zero hM),
    fun _ hM => exec_hexToIeeeDouble_of_ok (dec_of_hexMant_eq_zero hM)⟩

end Sys2Proof.Machine
end

section
/-! PROOFS, the family 41_decode: decode and the sign bit (41_decode.md R155). -/

namespace Sys2Proof.Machine

/-- No step before assembly reads the sign. -/
@[simp] theorem decNormalized_xor_signMask (w : Width) (h : Word w) :
    decNormalized w (h ^^^ signMask w) = decNormalized w h := by
  simp [decNormalized, decExponent]

@[simp] theorem decDenormalized_xor_signMask (w : Width) (h : Word w) :
    decDenormalized w (h ^^^ signMask w) = decDenormalized w h := by
  simp [decDenormalized]

/-- The bits below the sign of an assembled IEEE word come from the two other fields alone. -/
theorem nonSign_assembleIeee (w : Width) (s : Bool) (Eo : Int) (m : Nat) :
    nonSign w (assembleIeee w s Eo m) =
      (BitVec.ofInt w.ew Eo).toNat * 2 ^ w.mw + (BitVec.ofNat w.mw m).toNat := by
  have hE := (BitVec.ofInt w.ew Eo).isLt
  have hm := (BitVec.ofNat w.mw m).isLt
  rw [nonSign_eq_mod, assembleIeee, BitVec.toNat_cast, toNat_append3]
  cases w <;> cases s <;> simp at * <;> omega

theorem assembleIeee_not (w : Width) (s : Bool) (Eo : Int) (m : Nat) :
    assembleIeee w (!s) Eo m = assembleIeee w s Eo m ^^^ signMask w :=
  word_ext (by simp) (by simp [nonSign_assembleIeee])

theorem infinity_not (w : Width) (s : Bool) : infinity w (!s) = infinity w s ^^^ signMask w := by
  simp only [infinity_eq_assembleIeee, assembleIeee_not]

/-- Settles O53: both operands have one e_n and one mantissa, so both are answered by the infinity or both
by assembly, each with its own sign. -/
theorem decodeSignSymmetry : Obligations.DecodeSignSymmetry := by
  intro w h
  rcases lt_or_ge w.emax (decNormalized w h).2 with hgt | hmax
  · refine ⟨_, dec_eq_infinity hgt, ?_⟩
    rw [dec_eq_infinity (by simpa using hgt), signBit_xor_signMask, infinity_not]
  · refine ⟨_, dec_eq_assembleIeee hmax, ?_⟩
    rw [dec_eq_assembleIeee (by simpa using hmax), signBit_xor_signMask,
      decDenormalized_xor_signMask, assembleIeee_not]

end Sys2Proof.Machine
end

section
/-! PROOFS, the family 41_decode: decode in terms of the numbers that words denote (00_scope.md R15,
41_decode.md R156): it never rounds up, and it is exact on what the IEEE format can hold. -/

namespace Sys2Proof.Machine

/-- The unit of the bits that decode keeps is the last place of its result. -/
theorem decNormalized_snd_add_decLostBits (w : Width) (h : Word w) :
    (decNormalized w h).2 - (w.hw : Int) + (decLostBits w h : Int) =
      max (decNormalized w h).2 (w.emin + 1) - w.mw - 1 := by
  rw [hw_eq, decLostBits]
  omega

/-- The magnitude of an operand in units of the last place of its result. -/
theorem hexMagnitude_eq_div (w : Width) (h : Word w) :
    hexMagnitude w h = ((decNormalized w h).1 : ℚ) / 2 ^ decLostBits w h *
      2 ^ (max (decNormalized w h).2 (w.emin + 1) - w.mw - 1) := by
  rw [hexMagnitude_eq_decNormalized, ← decNormalized_snd_add_decLostBits, zpow_add₀ two_ne_zero,
    zpow_natCast]
  field_simp

/-- Decode drops no 1-bit of an operand that is a multiple of the last place of its result. -/
theorem dropAlignment_decDenormalized_of_hexMagnitude {w : Width} {h : Word w} {n : Nat}
    (hmag : hexMagnitude w h =
      (n : ℚ) * 2 ^ (max (decNormalized w h).2 (w.emin + 1) - w.mw - 1)) :
    dropAlignment w (decDenormalized w h).1 = n := by
  rw [hexMagnitude_eq_div, mul_left_inj' (by positivity), div_eq_iff (by positivity)] at hmag
  have hM : (decNormalized w h).1 = n * 2 ^ decLostBits w h := by exact_mod_cast hmag
  rw [dropAlignment_decDenormalized, hM, Nat.mul_div_cancel _ (by positivity)]

theorem hexMagnitude_lt (w : Width) (h : Word w) : hexMagnitude w h < 2 ^ (decNormalized w h).2 := by
  have hM : ((decNormalized w h).1 : ℚ) < 2 ^ w.hw := by exact_mod_cast decNormalized_fst_lt w h
  calc hexMagnitude w h < 2 ^ w.hw * 2 ^ ((decNormalized w h).2 - w.hw) := by
        rw [hexMagnitude_eq_decNormalized]
        exact mul_lt_mul_of_pos_right hM (by positivity)
    _ = 2 ^ (decNormalized w h).2 := by
        rw [← zpow_natCast, ← zpow_add₀ two_ne_zero, add_sub_cancel]

/-- Above EMIN the top bit of the normalized mantissa is set. -/
theorem two_pow_le_hexMagnitude {w : Width} {h : Word w} (he : w.emin < (decNormalized w h).2) :
    2 ^ ((decNormalized w h).2 - 1) ≤ hexMagnitude w h := by
  have hM : (2 : ℚ) ^ (w.hw - 1) ≤ (decNormalized w h).1 := by
    rw [decNormalized_eq_closed] at he ⊢
    exact_mod_cast two_pow_le_leftNormalizeClosed_fst w _ _ (hexMant_lt w h) he
  have hhw : ((w.hw - 1 : Nat) : Int) + ((decNormalized w h).2 - w.hw) =
      (decNormalized w h).2 - 1 := by
    rw [hw_eq]
    omega
  calc (2 : ℚ) ^ ((decNormalized w h).2 - 1)
      = 2 ^ (w.hw - 1) * 2 ^ ((decNormalized w h).2 - w.hw) := by
        rw [← zpow_natCast, ← zpow_add₀ two_ne_zero, hhw]
    _ ≤ hexMagnitude w h := by
        rw [hexMagnitude_eq_decNormalized]
        exact mul_le_mul_of_nonneg_right hM (by positivity)

/-- From 2^EMIN on, comparing a magnitude with a power of two is comparing e_n with the exponent. -/
theorem two_pow_le_hexMagnitude_iff {w : Width} {h : Word w} {k : Int} (hk : w.emin ≤ k) :
    2 ^ k ≤ hexMagnitude w h ↔ k < (decNormalized w h).2 := by
  constructor
  · intro hle
    exact (zpow_lt_zpow_iff_right₀ one_lt_two).1 (hle.trans_lt (hexMagnitude_lt w h))
  · intro hlt
    exact (zpow_le_zpow_right₀ one_le_two (by omega)).trans
      (two_pow_le_hexMagnitude (hk.trans_lt hlt))

/-- A word is determined by its IEEE fields. -/
theorem word_ext_ieee {w : Width} {a b : Word w} (hs : signBit w a = signBit w b)
    (hE : ieeeExp w a = ieeeExp w b) (hf : ieeeFrac w a = ieeeFrac w b) : a = b :=
  word_ext hs (by rw [nonSign_eq_ieee, nonSign_eq_ieee, hE, hf])

/-- An operand with the magnitude of an IEEE word is normalized to that word's exponent, or below it where
that is EMIN. -/
theorem max_decNormalized_emin_eq_encExponent {w : Width} {h a : Word w}
    (hmag : hexMagnitude w h = ieeeMagnitude w a) :
    max (decNormalized w h).2 w.emin = encExponent w a := by
  have hiff (k : Int) (hk : w.emin ≤ k) : k < (decNormalized w h).2 ↔ k < encExponent w a := by
    rw [← two_pow_le_hexMagnitude_iff hk, hmag, two_pow_le_ieeeMagnitude_iff w a hk]
  have hmin : w.emin ≤ encExponent w a := by
    rw [encExponent, Width.emin]
    omega
  have hle := hiff _ hmin
  have hge := hiff _ (le_max_right (decNormalized w h).2 w.emin)
  omega

/-- Decode is exact on what the IEEE format can hold: an operand with the sign and the magnitude of a
finite IEEE word decodes to that word. -/
theorem dec_eq_ok_of_hexMagnitude_eq {w : Width} {h a : Word w} (hsign : signBit w h = signBit w a)
    (hfin : ieeeExp w a ≤ 2 ^ w.ew - 2) (hmag : hexMagnitude w h = ieeeMagnitude w a) :
    dec w h = .ok a := by
  have he := max_decNormalized_emin_eq_encExponent hmag
  rw [encExponent] at he
  by_cases hE : ieeeExp w a = 0
  · rw [hE, Width.emin, Nat.cast_zero, zero_sub, max_eq_right_iff, ← Width.emin] at he
    have hm : dropAlignment w (decDenormalized w h).1 = ieeeFrac w a := by
      apply dropAlignment_decDenormalized_of_hexMagnitude
      rw [hmag, ieeeMagnitude, if_neg (not_not.2 hE), max_eq_right (by omega), Width.emin]
      congr 2
      ring
    obtain ⟨b, hok, hs, hbE, hbf⟩ := exists_dec_eq_ok_subnormal he
    rw [hok, word_ext_ieee (hs.trans hsign) (hbE.trans hE.symm) (hbf.trans hm)]
  · have hgt : w.emin < (decNormalized w h).2 := by
      rw [Width.emin] at he ⊢
      omega
    rw [max_eq_left hgt.le] at he
    have hm : dropAlignment w (decDenormalized w h).1 = 2 ^ w.mw + ieeeFrac w a := by
      apply dropAlignment_decDenormalized_of_hexMagnitude
      rw [hmag, ieeeMagnitude, if_pos hE, max_eq_left (by omega), he]
      push_cast
      rfl
    have hmax : (decNormalized w h).2 ≤ w.emax := by
      have hew := two_le_two_pow_ew w
      zify [hew] at hfin
      rw [Width.emax]
      omega
    obtain ⟨b, hok, hs, hbE, hbf⟩ := exists_dec_eq_ok_normal hgt hmax
    rw [hok, word_ext_ieee (hs.trans hsign) (by omega) (by omega)]

/-- The zeros denote the number zero. -/
theorem ieeeMagnitude_of_nonSign_eq_zero {w : Width} {a : Word w} (hn : nonSign w a = 0) :
    ieeeMagnitude w a = 0 := by
  have ha := eq_signedZero_of_nonSign w a hn
  rw [ha, signedZero_eq_assembleIeee, ieeeMagnitude_assembleIeee_subnormal w _ (by positivity)]
  simp

theorem hexMagnitude_nonneg (w : Width) (h : Word w) : 0 ≤ hexMagnitude w h := by
  rw [hexMagnitude_eq]
  positivity

/-- Settles O54: the result keeps the quotient of the normalized mantissa by the power of two it loses,
rounded down. -/
theorem decodeNeverRoundsUp : Obligations.DecodeNeverRoundsUp := by
  intro w h a hok hinf
  by_cases hn : nonSign w h = 0
  · obtain rfl := Result.ok.inj (hok.symm.trans (dec_of_nonSign_eq_zero hn))
    rw [ieeeMagnitude_of_nonSign_eq_zero hn]
    exact hexMagnitude_nonneg w _
  · have hmax : (decNormalized w h).2 ≤ w.emax := not_lt.1 fun hgt => hinf ⟨hn, hgt⟩
    have hdiv : (dropAlignment w (decDenormalized w h).1 : ℚ) ≤
        ((decNormalized w h).1 : ℚ) / 2 ^ decLostBits w h := by
      rw [dropAlignment_decDenormalized]
      exact_mod_cast Nat.cast_div_le
    rw [ieeeMagnitude_dec hok hn hmax, hexMagnitude_eq_div]
    exact mul_le_mul_of_nonneg_right hdiv (by positivity)

end Sys2Proof.Machine
end

section
/-! PROOFS, the family 41_decode: the way through the hex format and back (41_decode.md R154). -/

namespace Sys2Proof.Machine

/-- A positive number determines its sign and its magnitude. -/
theorem signFactor_mul_inj {s t : Bool} {x y : ℚ} (hx : 0 ≤ x) (hy : 0 < y)
    (h : signFactor s * x = signFactor t * y) : s = t ∧ x = y := by
  cases s <;> cases t <;> simp [signFactor] at h ⊢ <;> linarith

/-- Settles O51: the encoded word denotes the value of the double, which decode gives back exactly. -/
theorem doubleRoundTripIsExact : Obligations.DoubleRoundTripIsExact := by
  intro s t a hlo hhi
  obtain ⟨h, hok, hvalue⟩ := doubleEncodeIsExact s.config a hlo hhi
  have hpos : 0 < ieeeMagnitude .w64 a :=
    lt_of_lt_of_le (by positivity) (two_pow_le_ieeeMagnitude .w64 a (by omega))
  obtain ⟨hsign, hmag⟩ := signFactor_mul_inj (hexMagnitude_nonneg .w64 h) hpos hvalue
  exact ⟨h, exec_ieeeDoubleToHex_of_eq hok, exec_hexToIeeeDouble_of_ok
    (dec_eq_ok_of_hexMagnitude_eq hsign (hhi.trans (by decide)) hmag)⟩

/-- Clearing up to 23 low bits of a single's significand leaves its implicit bit. -/
theorem implicitBit_add_div_mul {k f : Nat} (hk : k ≤ 3) :
    (2 ^ 23 + f) / 2 ^ k * 2 ^ k = 2 ^ 23 + f / 2 ^ k * 2 ^ k := by
  interval_cases k <;> omega

/-- What encode keeps of the fraction of a single (R116): with E = 0 it discards bit 0, else the bits of the
remainder shift. -/
def keptFrac (a : BitVec 32) : Nat :=
  if ieeeExp .w32 a = 0 then ieeeFrac .w32 a / 2 * 2
  else ieeeFrac .w32 a / 2 ^ remainderShift (encExponent .w32 a) *
    2 ^ remainderShift (encExponent .w32 a)

theorem keptFrac_lt (a : BitVec 32) : keptFrac a < 2 ^ 23 := by
  have hf : ieeeFrac .w32 a < 2 ^ 23 := ieeeFrac_lt .w32 a
  rw [keptFrac]
  split_ifs
  · exact (Nat.div_mul_le_self _ _).trans_lt hf
  · exact (Nat.div_mul_le_self _ _).trans_lt hf

/-- A single with its lost bits cleared. -/
def clearLostBits (a : BitVec 32) : BitVec 32 :=
  assembleIeee .w32 (signBit .w32 a) (ieeeExp .w32 a) (keptFrac a)

@[simp] theorem signBit_clearLostBits (a : BitVec 32) :
    signBit .w32 (clearLostBits a) = signBit .w32 a :=
  signBit_assembleIeee ..

@[simp] theorem ieeeExp_clearLostBits (a : BitVec 32) :
    ieeeExp .w32 (clearLostBits a) = ieeeExp .w32 a :=
  ieeeExp_assembleIeee .w32 _ _ _ (ieeeExp_lt .w32 a)

@[simp] theorem ieeeFrac_clearLostBits (a : BitVec 32) :
    ieeeFrac .w32 (clearLostBits a) = keptFrac a :=
  (ieeeFrac_assembleIeee .w32 _ _ _ (ieeeExp_lt .w32 a)).trans (Nat.mod_eq_of_lt (keptFrac_lt a))

/-- Encode answers the number that the single denotes with its lost bits cleared (R116). -/
theorem exists_enc_w32_eq_ok_clearLostBits (c : Config) (a : BitVec 32) :
    ∃ h, enc c .w32 a = .ok h ∧ signBit .w32 h = signBit .w32 a ∧
      hexMagnitude .w32 h = ieeeMagnitude .w32 (clearLostBits a) := by
  obtain ⟨h, hok, hsign, hnormal, hsubnormal⟩ := singleEncodeTruncatesTheLowBits c a
  refine ⟨h, hok, hsign, ?_⟩
  rw [ieeeMagnitude, ieeeExp_clearLostBits, ieeeFrac_clearLostBits, keptFrac]
  by_cases hE : ieeeExp .w32 a = 0
  · rw [if_neg (not_not.2 hE), if_pos hE, hsubnormal hE]
    rfl
  · rw [if_pos hE, if_neg hE, (hnormal hE).2, implicitBit_add_div_mul (remainderShift_le _),
      Nat.cast_add, Nat.cast_pow]
    rfl

/-- Settles O52: the encoded word denotes the single with its lost bits cleared, which decode gives back
exactly for E ≤ 254; with E = 255 its e_n lies above EMAX. -/
theorem singleRoundTripClearsTheLostBits : Obligations.SingleRoundTripClearsTheLostBits := by
  intro s t a
  obtain ⟨h, hok, hsign, hmag⟩ := exists_enc_w32_eq_ok_clearLostBits s.config a
  by_cases hE : ieeeExp .w32 a ≤ 254
  · have hdec : dec .w32 h = .ok (clearLostBits a) :=
      dec_eq_ok_of_hexMagnitude_eq (by rw [hsign, signBit_clearLostBits])
        (by rwa [ieeeExp_clearLostBits]) hmag
    refine ⟨h, _, exec_ieeeSingleToHex_of_ok hok, exec_hexToIeeeSingle_of_ok hdec,
      signBit_clearLostBits a, ieeeExp_clearLostBits a, fun h1 _ => ?_, by omega, fun h0 => ?_⟩
    · rw [ieeeFrac_clearLostBits, keptFrac, if_neg (by omega)]
    · rw [ieeeFrac_clearLostBits, keptFrac, if_pos h0]
  · have h255 : ieeeExp .w32 a = 255 := by
      have hlt : ieeeExp .w32 a < 256 := ieeeExp_lt .w32 a
      omega
    have hgt : Width.emax .w32 < (decNormalized .w32 h).2 := by
      have he := max_decNormalized_emin_eq_encExponent hmag
      rw [encExponent, ieeeExp_clearLostBits, h255, bias_w32, emin_w32] at he
      rw [emax_w32]
      omega
    refine ⟨h, _, exec_ieeeSingleToHex_of_ok hok, exec_hexToIeeeSingle_of_ok (dec_eq_infinity hgt),
      ?_, ?_, by omega, fun _ => ieeeFrac_infinity .w32 _, by omega⟩
    · rw [signBit_infinity, hsign]
    · rw [ieeeExp_infinity, h255]
      rfl

end Sys2Proof.Machine
end

section
/-! PROOFS, the family 70_reset_and_hazards: the invariants at reset (70_reset_and_hazards.md R240). -/

namespace Sys2Proof.Machine

theorem faithful_of_no_history {s : State} (ha : s.accepted = []) (hr : s.responses = []) :
    s.Faithful := by
  rw [State.Faithful, ha, hr, List.map_nil]

theorem transactionsOk_of_no_history {s : State} (ha : s.accepted = []) (hr : s.responses = []) :
    s.TransactionsOk := by
  rw [State.TransactionsOk, ha, hr]
  exact .nil

/-- Settles O17: nothing has been accepted or answered at reset. -/
theorem resetMeetsTheInvariants : Obligations.ResetMeetsTheInvariants :=
  ⟨faithful_of_no_history reset_accepted reset_responses,
    transactionsOk_of_no_history reset_accepted reset_responses⟩

end Sys2Proof.Machine
end

section
/-! PROOFS, the family other: a step with no request waiting (10_state.md section 4). -/

namespace Sys2Proof.Machine

/-- Settles O8: of the two things a step can do, only idling is open to it with no request waiting. -/
theorem stepWithoutARequestIdles : Obligations.StepWithoutARequestIdles := by
  intro s hs
  rcases step_cases s with ⟨-, hidle⟩ | ⟨q, rest, hq, -⟩
  · exact hidle
  · exact absurd (hs.symm.trans hq) (List.cons_ne_nil q rest).symm

end Sys2Proof.Machine
end
